-- ==== Sys2Proof/Word.lean ====
section
/-! DEFINITION. The words of the machine, at the widths rule R5 of spec/00_scope.md gives them. Bit 0 is the least
significant bit of every value and every value is unsigned (rules R6 and R7). -/

namespace Sys2Proof

/-- An 8-bit value: a RAM cell, register A or B, OUT, IR, the instruction word, the bus (R5: CELLBITS, XLEN, BUSBITS). -/
abbrev Byte := BitVec 8

/-- A 4-bit RAM address: pc, MAR, an `AAAA` parameter (R5: ABITS, PCBITS, MARBITS). -/
abbrev Addr := BitVec 4

/-- A 4-bit field of the instruction word: the opcode `iiii` or the parameter `pppp` (R71). -/
abbrev Nibble := BitVec 4

/-- The 3-bit step counter T, t0 to t7 (R5: TSTEPS, R39). -/
abbrev StepCode := BitVec 3

/-- A 24-bit control word, one control line per bit (R140). -/
abbrev ControlWord := BitVec 24

end Sys2Proof
end

