-- ==== Sys2Proof/Syntax.lean ====
section
/-! DEFINITION. The instruction terms, one constructor per row of spec/opcode_table.json: the twelve instructions of
rule R74 of spec/30_encoding.md and the four unassigned opcodes (rule R76). A parameter that the word ignores
(NOP, CLR, OUT, HLT; rule R77) is no part of the term. -/

namespace Sys2Proof

/-- One term per instruction (R74, R75). -/
inductive Instr where
  /-- 0000, "CPU no operation" (R90). -/
  | nop
  /-- 0001, "Load value at address AAAA to Register A" (R100). -/
  | lda (aaaa : Addr)
  /-- 0010, "Add value at address AAAA to Register A" (R110). -/
  | add (aaaa : Addr)
  /-- 0011, "Subtract value at address AAAA from Register A" (R111). -/
  | sub (aaaa : Addr)
  /-- 0100, "Write Register A to address AAAA" (R101). -/
  | sta (aaaa : Addr)
  /-- 0101, "Load immediate IIII to Register A" (R102). -/
  | ldi (iiii : Nibble)
  /-- 0110, "Jump to address AAAA" (R120). -/
  | jmp (aaaa : Addr)
  /-- 0111, "Jump to address AAAA if Carry" (R121). -/
  | jc (aaaa : Addr)
  /-- 1000, "Jump to address AAAA if Zero" (R122). -/
  | jz (aaaa : Addr)
  /-- 1001, unassigned; the parameter is kept because `IllegalOpcode` records the whole word (R185). -/
  | reserved1001 (xxxx : Nibble)
  /-- 1010, unassigned (R76, R185). -/
  | reserved1010 (xxxx : Nibble)
  /-- 1011, unassigned (R76, R185). -/
  | reserved1011 (xxxx : Nibble)
  /-- 1100, unassigned (R76, R185). -/
  | reserved1100 (xxxx : Nibble)
  /-- 1101, "Clear Output" (R130). -/
  | clr
  /-- 1110, "Output Register A" (R131). -/
  | out
  /-- 1111, "Halt CPU" (R91). -/
  | hlt
deriving DecidableEq, Repr

end Sys2Proof
end

