-- ==== Sys2Proof/WellFormed.lean ====
section
/-! DEFINITION. Which terms are instructions of the machine. The operand types already bound every operand (a 4-bit
parameter, rule R71), so the one check left is that the opcode is assigned: the instruction set is the twelve
instructions of rule R74 "and no others" (spec/00_scope.md rule R1). -/

namespace Sys2Proof

/-- The term has an assigned opcode (R74); the four rows 1001 to 1100 are blank in the source (R76). -/
def Instr.wellFormed : Instr → Bool
  | .nop => true
  | .lda _ => true
  | .add _ => true
  | .sub _ => true
  | .sta _ => true
  | .ldi _ => true
  | .jmp _ => true
  | .jc _ => true
  | .jz _ => true
  | .reserved1001 _ => false
  | .reserved1010 _ => false
  | .reserved1011 _ => false
  | .reserved1100 _ => false
  | .clr => true
  | .out => true
  | .hlt => true

end Sys2Proof
end

