-- ==== Sys2Proof/Decode.lean ====
section
/-! DEFINITION. The instruction word: its two fields (rule R71 of spec/30_encoding.md), the total decoder (rule R75),
the encoder (rule R81), and the match and mask rows of the opcode map (rule R74). -/

namespace Sys2Proof

/-- `ir[7:4]`, the opcode field `iiii` (R71). -/
def opcodeField (w : Byte) : Nibble := w.extractLsb' 4 4

/-- `ir[3:0]`, the parameter field `pppp` (R71, R72). -/
def parameterField (w : Byte) : Nibble := w.extractLsb' 0 4

/-- The opcode map of R74, read as the source writes an opcode: bit 7 of the word first. The opcode alone selects the
instruction (R75); the parameter is dropped where the table ignores it (R77). -/
def instrOfFields (i7 i6 i5 i4 : Bool) (p : Nibble) : Instr :=
  match i7, i6, i5, i4 with
  | false, false, false, false => .nop
  | false, false, false, true  => .lda p
  | false, false, true,  false => .add p
  | false, false, true,  true  => .sub p
  | false, true,  false, false => .sta p
  | false, true,  false, true  => .ldi p
  | false, true,  true,  false => .jmp p
  | false, true,  true,  true  => .jc p
  | true,  false, false, false => .jz p
  | true,  false, false, true  => .reserved1001 p
  | true,  false, true,  false => .reserved1010 p
  | true,  false, true,  true  => .reserved1011 p
  | true,  true,  false, false => .reserved1100 p
  | true,  true,  false, true  => .clr
  | true,  true,  true,  false => .out
  | true,  true,  true,  true  => .hlt

/-- `decode(w)` of R75: total, every one of the 256 words is classified. -/
def decode (w : Byte) : Instr :=
  instrOfFields (w.getLsbD 7) (w.getLsbD 6) (w.getLsbD 5) (w.getLsbD 4) (parameterField w)

/-- Why no instruction can be read from a list of bytes. -/
inductive DecodeError where
  /-- There is no byte at all; an instruction is exactly one cell (R70). -/
  | noBytes
deriving DecidableEq, Repr

/-- Read one instruction, one byte long (R70), off the front of a list of bytes, with the rest of the list. -/
def decodeBytes : List Byte → Except DecodeError (Instr × List Byte)
  | [] => .error .noBytes
  | w :: rest => .ok (decode w, rest)

/-- `opcode(M)` of R74. -/
def Instr.opcode : Instr → Nibble
  | .nop => 0b0000#4
  | .lda _ => 0b0001#4
  | .add _ => 0b0010#4
  | .sub _ => 0b0011#4
  | .sta _ => 0b0100#4
  | .ldi _ => 0b0101#4
  | .jmp _ => 0b0110#4
  | .jc _ => 0b0111#4
  | .jz _ => 0b1000#4
  | .reserved1001 _ => 0b1001#4
  | .reserved1010 _ => 0b1010#4
  | .reserved1011 _ => 0b1011#4
  | .reserved1100 _ => 0b1100#4
  | .clr => 0b1101#4
  | .out => 0b1110#4
  | .hlt => 0b1111#4

/-- The parameter bits the assembler emits: the operand, or 0000 where the parameter is ignored (R81). -/
def Instr.parameter : Instr → Nibble
  | .nop => 0b0000#4
  | .lda p => p
  | .add p => p
  | .sub p => p
  | .sta p => p
  | .ldi p => p
  | .jmp p => p
  | .jc p => p
  | .jz p => p
  | .reserved1001 p => p
  | .reserved1010 p => p
  | .reserved1011 p => p
  | .reserved1100 p => p
  | .clr => 0b0000#4
  | .out => 0b0000#4
  | .hlt => 0b0000#4

/-- The word with these two fields, `{opcode, parameter}` (R71, R81). -/
def wordOfFields (op p : Nibble) : Byte := op ++ p

/-- `encode` of R81. For the four unassigned opcodes it rebuilds the word the term was decoded from. -/
def encode (i : Instr) : Byte := wordOfFields i.opcode i.parameter

/-- One row of the opcode map: a word `w` is this row's instruction iff `(w & mask) = pattern` (R74). -/
structure EncodingRow where
  mnemonic : String
  pattern : Byte
  mask : Byte
deriving DecidableEq, Repr

/-- The sixteen rows of R74, with the `match` and `mask` columns of spec/opcode_table.json. -/
def encodingTable : List EncodingRow :=
  [ ⟨"NOP", 0x00#8, 0xF0#8⟩, ⟨"LDA", 0x10#8, 0xF0#8⟩, ⟨"ADD", 0x20#8, 0xF0#8⟩, ⟨"SUB", 0x30#8, 0xF0#8⟩,
    ⟨"STA", 0x40#8, 0xF0#8⟩, ⟨"LDI", 0x50#8, 0xF0#8⟩, ⟨"JMP", 0x60#8, 0xF0#8⟩, ⟨"JC", 0x70#8, 0xF0#8⟩,
    ⟨"JZ", 0x80#8, 0xF0#8⟩, ⟨"RESERVED_1001", 0x90#8, 0xF0#8⟩, ⟨"RESERVED_1010", 0xA0#8, 0xF0#8⟩,
    ⟨"RESERVED_1011", 0xB0#8, 0xF0#8⟩, ⟨"RESERVED_1100", 0xC0#8, 0xF0#8⟩, ⟨"CLR", 0xD0#8, 0xF0#8⟩,
    ⟨"OUT", 0xE0#8, 0xF0#8⟩, ⟨"HLT", 0xF0#8, 0xF0#8⟩ ]

/-- `(w & mask) = match`, the test of R74. -/
def EncodingRow.covers (r : EncodingRow) (w : Byte) : Bool := (w &&& r.mask) == r.pattern

/-- The mnemonic of a term as spec/opcode_table.json spells it (R79). -/
def Instr.mnemonic : Instr → String
  | .nop => "NOP"
  | .lda _ => "LDA"
  | .add _ => "ADD"
  | .sub _ => "SUB"
  | .sta _ => "STA"
  | .ldi _ => "LDI"
  | .jmp _ => "JMP"
  | .jc _ => "JC"
  | .jz _ => "JZ"
  | .reserved1001 _ => "RESERVED_1001"
  | .reserved1010 _ => "RESERVED_1010"
  | .reserved1011 _ => "RESERVED_1011"
  | .reserved1100 _ => "RESERVED_1100"
  | .clr => "CLR"
  | .out => "OUT"
  | .hlt => "HLT"

/-- The instruction the decoder reads from a word given as a number, bit 0 the least significant bit. Every
instruction is one byte (R70), so a row of another length is no instruction of this machine. -/
def decodeTableWord (nbits w : Nat) : Option Instr :=
  if nbits = 8 then
    match decodeBytes [BitVec.ofNat 8 w] with
    | .ok (i, _) => some i
    | .error _ => none
  else none

end Sys2Proof
end

