-- ==== Sys2Proof/Config.lean ====
section
/-! DEFINITION. What is fixed for one machine or one launch and is not state: the named parameters of rule R5 of
spec/00_scope.md, the launch parameters of rule R202 of spec/70_reset_and_hazards.md, and the model's one free value. -/

namespace Sys2Proof.Config

/-- How many RAM cells there are, `RAMCELLS` (R5, R50). -/
def ramCells : Nat := 16

/-- `LDI_HIGH`, the bus bits 7:4 under the line IO, which LDI writes to A[7:4] (R73, R146; log 7, DESIGN CHOICE of the
spec: decision D5). -/
def ldiHigh : Nibble := 0#4

/-- `RESET_PC`, the address of the first fetch (R201; log 4, DESIGN CHOICE of the spec: decision D11). -/
def resetPc : Addr := 0#4

/-- What a RAM cell reads as that the memory list does not name (log 3, DESIGN CHOICE, unsafe: R203 leaves it open).
`State.launch` names all sixteen cells, so a statement over launches does not rest on it. -/
def ramUnlisted : Byte := 0#8

/-- FREE VALUE (log 1). Whether the step counter advances on the clock edge that sets HALT; rule R169 of
spec/45_microcode.md leaves T of a halted machine at 3 if it does and at 2 if it does not. No body, so no proof can
see it; `State.draws` is the argument, so that two halts need not agree. -/
opaque haltEdgeAdvancesT : Nat → Bool

/-- The launch parameters `INIT_A`, `INIT_B`, `INIT_CF`, `INIT_ZF`, `INIT_OUT`, `INIT_IR`, `INIT_MAR` (R202): reset
leaves these registers unspecified, and a claim holds for every value of each. -/
structure Launch where
  initA : Byte
  initB : Byte
  initCf : Bool
  initZf : Bool
  initOut : Byte
  initIr : Byte
  initMar : Addr
deriving DecidableEq, Repr

/-- The one choice of launch parameters that `State.reset` stands for (log 2, DESIGN CHOICE, unsafe: R202 says a claim
must not assume they are zero). -/
def zeroLaunch : Launch where
  initA := 0#8
  initB := 0#8
  initCf := false
  initZf := false
  initOut := 0#8
  initIr := 0#8
  initMar := 0#4

end Sys2Proof.Config
end

