-- ==== Sys2Proof/Machine/State.lean ====
section
/-! DEFINITION. All the state of rule R20 of spec/10_state.md, both its levels (I, the instruction level, and M, the
micro-step level), the reasons a step can stop, and the state right after reset (rules R201 to R204 of
spec/70_reset_and_hazards.md). -/

namespace Sys2Proof.Machine

/-- The RAM (R41, R50) as pairs of an address and the byte there, in one canonical form (`Memory.wf`): addresses
strictly rising, all below 16, no byte equal to what an unlisted address reads as. -/
abbrev Memory := List Host.Cell

/-- The complete state of the machine (R20: "Nothing else is state"), and one counter of the model's own. -/
structure State where
  /-- Register A, the accumulator (R21). -/
  a : Byte
  /-- Register B, the second ALU operand (R22, R23). -/
  b : Byte
  /-- The program counter (R26): the address of the next instruction to fetch. -/
  pc : Addr
  /-- The carry flag CF (R30, R32). -/
  cf : Bool
  /-- The zero flag ZF (R30, R32). -/
  zf : Bool
  /-- The sixteen RAM cells (R41). -/
  ram : Memory
  /-- The output register OUT (R34). -/
  out : Byte
  /-- The output trace (R35): every value written to OUT, oldest first. -/
  trace : List Byte
  /-- The halt latch HALT (R36). -/
  halt : Bool
  /-- The instruction register IR (R37), micro-step level. -/
  ir : Byte
  /-- The memory address register MAR (R38), micro-step level. -/
  mar : Addr
  /-- The step counter T (R39), micro-step level: 0 at every instruction boundary of a running machine. -/
  t : StepCode
  /-- THE MODEL'S OWN, not the spec's (log 1): the index of the next free value. -/
  draws : Nat
deriving DecidableEq, Repr

/-- Why a step has no successor. Both are outcomes of the model that rule R184 of spec/60_exceptions.md names; the
hardware has no fault of its own (R180). -/
inductive Fault where
  /-- `Halted` (R93, R184): raised by `step` and by the micro-step clock when HALT = 1. It is the normal end of a run,
  a final state and no error; the host's three outcomes have no other name for "no step". Safe: nothing runs on. -/
  | halted
  /-- `IllegalOpcode(ir)` (R185): raised by the four reserved opcodes, with the word and the address it was fetched
  from. Safe: the model stops where the source says nothing of what the hardware does. -/
  | illegalOpcode (ir : Byte) (addr : Addr)
deriving DecidableEq, Repr

/-- Why the model gives a step no meaning. -/
inductive Refusal where
  /-- An instruction whose meaning is not written yet; no arm of `exec` answers it now. Safe: the model stops. -/
  | notModelled (mnemonic : String)
  /-- Raised by the micro-step only: a line loads from the bus and no line drives it (93_implementation_defined.md
  U10). Safe: no control word of this machine does so (R164). -/
  | busFloating
  /-- Raised by the micro-step only: two Out lines drive the bus at once (R163 has one). Safe: no control word of this
  machine does so (R164). -/
  | busContention
  /-- Raised by the micro-step clock only: the microprogram has no control word at this step, t6, t7 or a step after
  NXT (93_implementation_defined.md U5). Safe: never reached from an instruction boundary (R165). -/
  | noControlWord
deriving DecidableEq, Repr

/-- The machine right after reset. R201 gives pc, HALT and T, R35 the empty trace; R202 gives no value for A, B, CF,
ZF, OUT, IR and MAR (log 2, DESIGN CHOICE: zero) and R203 none for the RAM (log 3: no cell listed).
`State.launch` (Machine/Launch.lean) is the same state for EVERY choice of those. -/
def State.reset : State where
  a := Config.zeroLaunch.initA
  b := Config.zeroLaunch.initB
  pc := Config.resetPc
  cf := Config.zeroLaunch.initCf
  zf := Config.zeroLaunch.initZf
  ram := []
  out := Config.zeroLaunch.initOut
  trace := []
  halt := false
  ir := Config.zeroLaunch.initIr
  mar := Config.zeroLaunch.initMar
  t := 0#3
  draws := 0

end Sys2Proof.Machine
end

