-- ==== Sys2Proof/Machine/Ops.lean ====
section
/-! DEFINITION. The named operations over memory and registers: the pseudocode primitives of rule R8 of
spec/00_scope.md, the fetch and the advance of rule R9, and the two outcomes with no successor (rules R93 and R185).
There is no operation that takes an exception or returns from one: rules R186 and R187 of spec/60_exceptions.md say
that no event of this machine saves state or redirects control. -/

namespace Sys2Proof.Machine

/-- What a step answers (R184). -/
abbrev Result := Host.Outcome State Fault Refusal

/-! ### The RAM -/

/-- The byte at an address (R52): total, an address the list does not name reads as `Config.ramUnlisted`. -/
def Memory.read : Memory → Nat → Byte
  | [], _ => Config.ramUnlisted
  | (k, w) :: m, x => if k = x then w else Memory.read m x

/-- Put a byte at an address (R53), keeping the canonical form: a byte equal to what an unlisted address reads as is
not listed. -/
def Memory.write : Memory → Nat → Byte → Memory
  | [], x, v => if v = Config.ramUnlisted then [] else [(x, v)]
  | (k, w) :: m, x, v =>
    if x < k then
      if v = Config.ramUnlisted then (k, w) :: m else (x, v) :: (k, w) :: m
    else if x = k then
      if v = Config.ramUnlisted then m else (x, v) :: m
    else (k, w) :: Memory.write m x v

/-- The canonical form for addresses from `lo` on. -/
def Memory.wfFrom : Nat → Memory → Bool
  | _, [] => true
  | lo, (k, w) :: m =>
    decide (lo ≤ k) && decide (k < Config.ramCells) && decide (w ≠ Config.ramUnlisted) && Memory.wfFrom (k + 1) m

/-- The canonical form: addresses strictly rising and below 16, no byte equal to what an unlisted address reads as. -/
def Memory.wf (m : Memory) : Bool := Memory.wfFrom 0 m

/-- The cells `lo`, `lo + 1`, … (`n` of them) of a memory that holds `f x` at each address `x`, in canonical form. -/
def Memory.cellsFrom (f : Addr → Byte) : Nat → Nat → Memory
  | 0, _ => []
  | n + 1, lo =>
    if f (BitVec.ofNat 4 lo) = Config.ramUnlisted then Memory.cellsFrom f n (lo + 1)
    else (lo, f (BitVec.ofNat 4 lo)) :: Memory.cellsFrom f n (lo + 1)

/-- The memory that holds `f x` at each of the sixteen addresses `x` (R203: INIT_RAM "giving an 8-bit value for every
address 0 to 15"). -/
def Memory.ofCells (f : Addr → Byte) : Memory := Memory.cellsFrom f Config.ramCells 0

/-- `MemRead(addr, 1)` (R52): the byte of the cell; it changes nothing at the instruction level. -/
def State.memRead (s : State) (addr : Addr) : Byte := s.ram.read addr.toNat

/-- `MemWrite(addr, 1, v)` (R53): sets one cell and leaves the other fifteen unchanged. -/
def State.memWrite (s : State) (addr : Addr) (v : Byte) : State := { s with ram := s.ram.write addr.toNat v }

/-! ### The registers, one home each -/

/-- `x[A] <- v` (R8, R21). -/
def State.setA (s : State) (v : Byte) : State := { s with a := v }

/-- `x[B] <- v` (R8, R22). -/
def State.setB (s : State) (v : Byte) : State := { s with b := v }

/-- `pc <- target` (R8, R26). -/
def State.setPc (s : State) (target : Addr) : State := { s with pc := target }

/-- `CF <- c; ZF <- z`: both flags are always written together (R30). -/
def State.setFlags (s : State) (c z : Bool) : State := { s with cf := c, zf := z }

/-- `MAR <- addr` (R38): select the RAM cell of the next access. -/
def State.setMar (s : State) (addr : Addr) : State := { s with mar := addr }

/-- `IR <- w` (R37). -/
def State.setIr (s : State) (w : Byte) : State := { s with ir := w }

/-- `T <- n` (R39). -/
def State.setT (s : State) (n : StepCode) : State := { s with t := n }

/-- `OUT <- v`, which also appends `v` to the output trace (R8, R35). -/
def State.showOut (s : State) (v : Byte) : State := { s with out := v, trace := s.trace ++ [v] }

/-- T after a clock edge that sets HALT, from the step `n` in which HLT is asserted: `n + 1`, or `n` if the counter did
not advance on that edge (R169; FREE VALUE, log 1). -/
def State.haltedT (s : State) (n : StepCode) : StepCode :=
  if Config.haltEdgeAdvancesT s.draws then n + 1 else n

/-- `HALT <- 1` in the micro-step `n` (R36, R91, R144): the clock is disconnected, so T keeps whatever that edge left
(R169); the free value is used up. -/
def State.stopClock (s : State) (n : StepCode) : State :=
  { s with halt := true, t := s.haltedT n, draws := s.draws + 1 }

/-! ### Fetch and the outcomes without a successor -/

/-- The word the next step fetches, `MemRead(pc, 1)` (R9). -/
def State.fetchWord (s : State) : Byte := s.memRead s.pc

/-- The fetch and the advance of R9: IR = the word, MAR = the old pc, pc one on modulo 16 (R27). -/
def State.fetched (s : State) : State :=
  ((s.setIr s.fetchWord).setMar s.pc).setPc (s.pc + 1#4)

/-- The address the instruction being executed was fetched from: pc already holds the following address (R27). -/
def State.fetchedFrom (s : State) : Addr := s.pc - 1#4

/-- `raise IllegalOpcode(ir)` (R185): it records the word and the address it was fetched from. -/
def raiseIllegalOpcode (ir : Byte) (s : State) : Result := .fault (.illegalOpcode ir s.fetchedFrom)

end Sys2Proof.Machine
end

