-- ==== Sys2Proof/Machine/Flags.lean ====
section
/-! DEFINITION. The ALU and the two flags it generates: rules R112 to R116 of spec/42_arithmetic.md. -/

namespace Sys2Proof.Machine

/-- The second input of the adder: B, or its complement for subtraction (R112). -/
def aluOperand (b : Byte) (sub : Bool) : Byte := if sub then ~~~b else b

/-- `C_in`: high for subtraction, low for addition (R112; log 11). -/
def carryIn (sub : Bool) : Nat := if sub then 1 else 0

/-- The 9-bit sum `s` of R112, a natural number. -/
def aluSum (a b : Byte) (sub : Bool) : Nat := a.toNat + (aluOperand b sub).toNat + carryIn sub

/-- `r`, the 8-bit result `s mod 256` (R112). -/
def aluResult (a b : Byte) (sub : Bool) : Byte := BitVec.ofNat 8 (aluSum a b sub % 256)

/-- CF, the carry out of bit 7, `s div 256` (R112, R113, R114; log 8). -/
def aluCarry (a b : Byte) (sub : Bool) : Bool := decide (aluSum a b sub / 256 = 1)

/-- ZF, 1 iff the 8-bit result is 0x00; the carry is not part of the test (R115; log 9). -/
def zeroFlag (r : Byte) : Bool := decide (r = 0x00#8)

/-- The line FI (R153): both flags take the ALU's output for the A and B of this state (R116; log 10). -/
def latchFlags (sub : Bool) (s : State) : State :=
  s.setFlags (aluCarry s.a s.b sub) (zeroFlag (aluResult s.a s.b sub))

/-- The shared execute phase of ADD and SUB (R110, R111): load B from the operand's cell, then A and both flags from
one ALU output, taken with the new B and the old A (R116). -/
def arithmetic (sub : Bool) (v : Byte) (s : State) : State :=
  (latchFlags sub (s.setB v)).setA (aluResult s.a v sub)

end Sys2Proof.Machine
end

