-- ==== Sys2Proof/Machine/Operands.lean ====
section
/-! DEFINITION. The operand forms: the one memory addressing mode, absolute (rule R103 of spec/41_load_store.md), the
immediate (rule R73 of spec/30_encoding.md) and the jump target (rule R123 of spec/43_jumps.md). -/

namespace Sys2Proof.Machine

/-- `zext_8` of a 4-bit value put on the bus with `LDI_HIGH` in bits 7:4 (R73, R146; log 7). -/
def immediate (iiii : Nibble) : Byte := Config.ldiHigh ++ iiii

/-- The cell number of an `AAAA` operand, "used as is: no scaling, no offset, no sign" (R72, R103). -/
def cellOf (aaaa : Addr) : Nat := aaaa.toNat

/-- The value of an absolute operand (R103): the whole 8-bit cell. -/
def operandValue (aaaa : Addr) (s : State) : Byte := s.memRead aaaa

/-- The access to an absolute operand goes through the MAR and leaves the operand's address there (R38, R54). -/
def selectOperand (aaaa : Addr) (s : State) : State := s.setMar aaaa

/-- A store to an absolute operand (R53, R103). -/
def storeOperand (aaaa : Addr) (v : Byte) (s : State) : State := (selectOperand aaaa s).memWrite aaaa v

end Sys2Proof.Machine
end

