-- ==== Sys2Proof/Machine/Arithmetic.lean ====
section
/-! DEFINITION. ADD and SUB: rules R110 and R111 of spec/42_arithmetic.md. Each
definition is the execute phase of the step of rule R9 of spec/00_scope.md: the word has been fetched and pc already
holds the address of the following instruction. -/

namespace Sys2Proof.Machine

/-- ADD (R110). -/
def execAdd (aaaa : Addr) (s : State) : Result :=
  .next (arithmetic false (operandValue aaaa s) (selectOperand aaaa s))

/-- SUB (R111). -/
def execSub (aaaa : Addr) (s : State) : Result :=
  .next (arithmetic true (operandValue aaaa s) (selectOperand aaaa s))

end Sys2Proof.Machine
end

