-- ==== Sys2Proof/Machine/Control.lean ====
section
/-! DEFINITION. NOP and HLT: rules R90 and R91 of spec/40_control_nop_hlt.md. Each
definition is the execute phase of the step of rule R9 of spec/00_scope.md: the word has been fetched and pc already
holds the address of the following instruction. -/

namespace Sys2Proof.Machine

/-- NOP (R90): nothing. -/
def execNop (s : State) : Result := .next s

/-- HLT (R91): HALT <- 1. The HLT line is asserted in micro-step t2 and the clock stops there (R169). -/
def execHlt (s : State) : Result := .next (s.stopClock 2#3)

end Sys2Proof.Machine
end

