-- ==== Sys2Proof/Machine/Jumps.lean ====
section
/-! DEFINITION. JMP, JC and JZ: rules R120 to R122 of spec/43_jumps.md. Each
definition is the execute phase of the step of rule R9 of spec/00_scope.md: the word has been fetched and pc already
holds the address of the following instruction. -/

namespace Sys2Proof.Machine

/-- A conditional load of the program counter (R124): the target if the flag is set, else the fall-through address the
fetch left. -/
def jumpIf (flag : Bool) (target : Addr) (s : State) : State := if flag then s.setPc target else s

/-- JMP (R120): pc <- aaaa. -/
def execJmp (aaaa : Addr) (s : State) : Result := .next (s.setPc aaaa)

/-- JC (R121): if CF = 1 then pc <- aaaa. -/
def execJc (aaaa : Addr) (s : State) : Result := .next (jumpIf s.cf aaaa s)

/-- JZ (R122): if ZF = 1 then pc <- aaaa. -/
def execJz (aaaa : Addr) (s : State) : Result := .next (jumpIf s.zf aaaa s)

end Sys2Proof.Machine
end

