-- ==== Sys2Proof/Machine/LoadStore.lean ====
section
/-! DEFINITION. LDA, STA and LDI: rules R100 to R102 of spec/41_load_store.md. Each
definition is the execute phase of the step of rule R9 of spec/00_scope.md: the word has been fetched and pc already
holds the address of the following instruction. -/

namespace Sys2Proof.Machine

/-- LDA (R100): x[A] <- MemRead(aaaa, 1). -/
def execLda (aaaa : Addr) (s : State) : Result :=
  .next ((selectOperand aaaa s).setA (operandValue aaaa s))

/-- STA (R101): MemWrite(aaaa, 1, x[A]). -/
def execSta (aaaa : Addr) (s : State) : Result := .next (storeOperand aaaa s.a s)

/-- LDI (R102): x[A] <- zext_8(iiii). -/
def execLdi (iiii : Nibble) (s : State) : Result := .next (s.setA (immediate iiii))

end Sys2Proof.Machine
end

