-- ==== Sys2Proof/Machine/Output.lean ====
section
/-! DEFINITION. CLR and OUT: rules R130 and R131 of spec/44_output.md. Each
definition is the execute phase of the step of rule R9 of spec/00_scope.md: the word has been fetched and pc already
holds the address of the following instruction. -/

namespace Sys2Proof.Machine

/-- CLR (R130): OUT <- 0x00, and the trace grows by 0x00. -/
def execClr (s : State) : Result := .next (s.showOut 0x00#8)

/-- OUT (R131): OUT <- x[A], and the trace grows by it. -/
def execOut (s : State) : Result := .next (s.showOut s.a)

end Sys2Proof.Machine
end

