-- ==== Sys2Proof/Machine/Reserved.lean ====
section
/-! DEFINITION. The four unassigned opcodes: rule R76 of spec/30_encoding.md and rule R185 of spec/60_exceptions.md. Each
definition is the execute phase of the step of rule R9 of spec/00_scope.md: the word has been fetched and pc already
holds the address of the following instruction. -/

namespace Sys2Proof.Machine

/-- Opcode 1001 (R185): IllegalOpcode(ir). -/
def execReserved1001 (xxxx : Nibble) (s : State) : Result := raiseIllegalOpcode (wordOfFields 0b1001#4 xxxx) s

/-- Opcode 1010 (R185): IllegalOpcode(ir). -/
def execReserved1010 (xxxx : Nibble) (s : State) : Result := raiseIllegalOpcode (wordOfFields 0b1010#4 xxxx) s

/-- Opcode 1011 (R185): IllegalOpcode(ir). -/
def execReserved1011 (xxxx : Nibble) (s : State) : Result := raiseIllegalOpcode (wordOfFields 0b1011#4 xxxx) s

/-- Opcode 1100 (R185): IllegalOpcode(ir). -/
def execReserved1100 (xxxx : Nibble) (s : State) : Result := raiseIllegalOpcode (wordOfFields 0b1100#4 xxxx) s

end Sys2Proof.Machine
end

