-- ==== Sys2Proof/Machine/Dispatch.lean ====
section
/-! DEFINITION. `execute(ir)` of rule R9 of spec/00_scope.md: one arm per row of spec/opcode_table.json. -/

namespace Sys2Proof.Machine

def exec (i : Instr) (s : State) : Host.Outcome State Fault Refusal :=
  match i with
  | .nop => Sys2Proof.Machine.execNop s
  | .lda aaaa => Sys2Proof.Machine.execLda aaaa s
  | .add aaaa => Sys2Proof.Machine.execAdd aaaa s
  | .sub aaaa => Sys2Proof.Machine.execSub aaaa s
  | .sta aaaa => Sys2Proof.Machine.execSta aaaa s
  | .ldi iiii => Sys2Proof.Machine.execLdi iiii s
  | .jmp aaaa => Sys2Proof.Machine.execJmp aaaa s
  | .jc aaaa => Sys2Proof.Machine.execJc aaaa s
  | .jz aaaa => Sys2Proof.Machine.execJz aaaa s
  -- the four unassigned opcodes: the model-level outcome of rule R185
  | .reserved1001 xxxx => Sys2Proof.Machine.execReserved1001 xxxx s
  | .reserved1010 xxxx => Sys2Proof.Machine.execReserved1010 xxxx s
  | .reserved1011 xxxx => Sys2Proof.Machine.execReserved1011 xxxx s
  | .reserved1100 xxxx => Sys2Proof.Machine.execReserved1100 xxxx s
  | .clr => Sys2Proof.Machine.execClr s
  | .out => Sys2Proof.Machine.execOut s
  | .hlt => Sys2Proof.Machine.execHlt s

end Sys2Proof.Machine
end

