-- ==== Sys2Proof/Machine/Step.lean ====
section
/-! DEFINITION. One instruction step: rule R9 of spec/00_scope.md with the outcomes and their order of rules R183 and
R184 of spec/60_exceptions.md. -/

namespace Sys2Proof.Machine

/-- HALT = 1 has no step (R93); otherwise fetch, advance, execute (R9). -/
def step (s : State) : Host.Outcome State Fault Refusal :=
  if s.halt then .fault .halted else exec (decode s.fetchWord) s.fetched

/-- `s` with an instruction word, numbered as spec/opcode_table.json numbers its bits, stored in the cell at pc, which is
where the next step fetches. A halted machine stays halted: it fetches nothing (R93). -/
def State.withFetchWord (s : State) (nbits w : Nat) : State :=
  s.memWrite s.pc (BitVec.ofNat 8 (w % 2 ^ nbits))

end Sys2Proof.Machine
end

