-- ==== Sys2Proof/Machine/Assembler.lean ====
section
/-! DEFINITION. The spec's own assembler notation, as terms and not as text: rules R79 to R81 of spec/30_encoding.md. It
is no property of the hardware (92_eei_decisions.md D19); it is how a program of spec/95_test_vectors.md becomes an
INIT_RAM. -/

namespace Sys2Proof.Machine

/-- `instr` or `data` of the grammar of R79, with the number as it is written. -/
inductive AsmItem where
  | nop
  | lda (number : Nat)
  | add (number : Nat)
  | sub (number : Nat)
  | sta (number : Nat)
  | ldi (number : Nat)
  | jmp (number : Nat)
  | jc (number : Nat)
  | jz (number : Nat)
  | clr
  | out
  | hlt
  /-- `.byte number`: one RAM cell (R80). -/
  | byte (number : Nat)
deriving DecidableEq, Repr

/-- `line` of the grammar of R79: an optional address, "the cell the line is placed at". -/
structure AsmLine where
  address : Option Nat
  item : AsmItem
deriving DecidableEq, Repr

/-- The number is in its range: an address or immediate 0 to 15, a data byte 0 to 255 (R79). -/
def asmItemOk : AsmItem → Bool
  | .nop => true
  | .lda n => decide (n < 16)
  | .add n => decide (n < 16)
  | .sub n => decide (n < 16)
  | .sta n => decide (n < 16)
  | .ldi n => decide (n < 16)
  | .jmp n => decide (n < 16)
  | .jc n => decide (n < 16)
  | .jz n => decide (n < 16)
  | .clr => true
  | .out => true
  | .hlt => true
  | .byte n => decide (n < 256)

/-- The byte an item becomes once its number is in range: the encoding of R81, or the data byte. -/
def asmItemByte : AsmItem → Byte
  | .nop => encode .nop
  | .lda n => encode (.lda (BitVec.ofNat 4 n))
  | .add n => encode (.add (BitVec.ofNat 4 n))
  | .sub n => encode (.sub (BitVec.ofNat 4 n))
  | .sta n => encode (.sta (BitVec.ofNat 4 n))
  | .ldi n => encode (.ldi (BitVec.ofNat 4 n))
  | .jmp n => encode (.jmp (BitVec.ofNat 4 n))
  | .jc n => encode (.jc (BitVec.ofNat 4 n))
  | .jz n => encode (.jz (BitVec.ofNat 4 n))
  | .clr => encode .clr
  | .out => encode .out
  | .hlt => encode .hlt
  | .byte n => BitVec.ofNat 8 n

/-- Assemble one item; none where its number is out of range (R79). -/
def assembleItem (i : AsmItem) : Option Byte := if asmItemOk i then some (asmItemByte i) else none

/-- Place lines from the cell `next` on, over the RAM contents `ram`: a cell no line names keeps what `ram` gives it
(R79). A line without an address goes to the cell after the line before it (log 17, DESIGN CHOICE). None where an address
is not 0 to 15 or an item is out of range. -/
def assembleFrom : Nat → List AsmLine → (Addr → Byte) → Option (Addr → Byte)
  | _, [], ram => some ram
  | next, l :: ls, ram =>
    if l.address.getD next < 16 then
      match assembleItem l.item with
      | some v =>
        assembleFrom (l.address.getD next + 1) ls
          (fun x => if x = BitVec.ofNat 4 (l.address.getD next) then v else ram x)
      | none => none
    else none

/-- The INIT_RAM of a program placed over the contents `ram` of the cells it does not name (R79, R203). -/
def assemble (program : List AsmLine) (ram : Addr → Byte) : Option (Addr → Byte) := assembleFrom 0 program ram

end Sys2Proof.Machine
end

