-- ==== Sys2Proof/Machine/Launch.lean ====
section
/-! DEFINITION. What the host does to the machine before a run, and what it may look at: rules R200 to R205 and R211 of
spec/70_reset_and_hazards.md. None of it is a step (R200). -/

namespace Sys2Proof.Machine

/-- The launch state of R204, for every choice of the launch parameters (R202) and of INIT_RAM (R203). -/
def State.launch (p : Config.Launch) (initRam : Addr → Byte) : State where
  a := p.initA
  b := p.initB
  pc := Config.resetPc
  cf := p.initCf
  zf := p.initZf
  ram := Memory.ofCells initRam
  out := p.initOut
  trace := []
  halt := false
  ir := p.initIr
  mar := p.initMar
  t := 0#3
  draws := 0

/-- Reset as the event that ends a halt (R94, R200): it begins a new launch. pc, HALT and T are fixed (R201), the RAM
is not changed (R203), the registers of R202 take any values `p`, and the trace of the new launch is empty (R35). -/
def pressReset (p : Config.Launch) (s : State) : State :=
  { a := p.initA, b := p.initB, pc := Config.resetPc, cf := p.initCf, zf := p.initZf, ram := s.ram, out := p.initOut,
    trace := [], halt := false, ir := p.initIr, mar := p.initMar, t := 0#3, draws := s.draws }

/-- What the host reads on the display at any time: the 8-bit value of OUT (R34, R211). How it is drawn is outside the
model (R4). -/
def State.display (s : State) : Byte := s.out

end Sys2Proof.Machine
end

