-- ==== Sys2Proof/Machine/Microcode.lean ====
section
/-! DEFINITION. The level below the instruction: the 24-bit control word, the control lines, one micro-step, the fetch
cycle and the microprograms of spec/45_microcode.md (rules R140 to R169). The normative machine is the instruction
step (rule R10); this one must agree with it at every instruction boundary (rule R170). -/

namespace Sys2Proof.Machine

/-- The named control lines of R140; bits 2 and 1 have no name. -/
inductive ControlLine where
  /-- "Halt" (R144). -/
  | hlt
  /-- "MAR In" (R141). -/
  | mi
  /-- "RAM In" (R142). -/
  | ri
  /-- "RAM Out" (R143). -/
  | ro
  /-- "Instruction Register In" (R145). -/
  | ii
  /-- "Instruction Register Out" (R146). -/
  | io
  /-- "A Register In" (R147). -/
  | ai
  /-- "A Register Out" (R148). -/
  | ao
  /-- "B Register In" (R149). -/
  | bi
  /-- "B Register Out" (R150): asserted by no microprogram, no effect in the model (R161; log 15). -/
  | bo
  /-- ΣO, "ALU Sum Out" (R151). -/
  | sumOut
  /-- "ALU Subtraction Out" (R152): the subtract select. -/
  | so
  /-- "Flag Register In" (R153). -/
  | fi
  /-- "Output Register In" (R154). -/
  | oi
  /-- "Output Register Clear" (R155). -/
  | oc
  /-- "Output Register Set 2's Complement" (R156): asserted by no microprogram, no effect in the model (R161; log 15). -/
  | o2
  /-- "Counter Enable" (R157). -/
  | ce
  /-- "Counter In" (R158). -/
  | ci
  /-- "Counter Out" (R159). -/
  | co
  /-- "Jump Carry" (R160). -/
  | jc
  /-- "Jump Zero" (R160). -/
  | jz
  /-- "Fetch Next Instruction" (R162). -/
  | nxt
deriving DecidableEq, Repr

/-- The bit of the control word that asserts a line (R140). -/
def lineBit : ControlLine → Nat
  | .hlt => 23
  | .mi => 22
  | .ri => 21
  | .ro => 20
  | .ii => 19
  | .io => 18
  | .ai => 17
  | .ao => 16
  | .bi => 15
  | .bo => 14
  | .sumOut => 13
  | .so => 12
  | .fi => 11
  | .oi => 10
  | .oc => 9
  | .o2 => 8
  | .ce => 7
  | .ci => 6
  | .co => 5
  | .jc => 4
  | .jz => 3
  | .nxt => 0

/-- "A line is asserted in a micro-step when its bit is 1" (R140). -/
def asserted (cw : ControlWord) (l : ControlLine) : Bool := cw.getLsbD (lineBit l)

/-- The control word that asserts exactly these lines (R140, R168). -/
def wordOfLines : List ControlLine → ControlWord
  | [] => 0#24
  | l :: ls => wordOfLines ls ||| BitVec.ofNat 24 (2 ^ lineBit l)

/-- A control word without the lines that no control word of this machine asserts: BO, O2 and the unnamed bits 2 and 1,
to which a model gives no effect (R161, decision D23, 93_implementation_defined.md U3 and U4; log 15). -/
def usedLines (cw : ControlWord) : ControlWord := cw &&& ~~~(wordOfLines [.bo, .o2] ||| 0b110#24)

/-- The fetch cycle's lines at t0, `CO MI` (R166; log 14). -/
def fetchLinesT0 : List ControlLine := [.co, .mi]

/-- The fetch cycle's lines at t1, `RO II CE` (R166; log 14). -/
def fetchLinesT1 : List ControlLine := [.ro, .ii, .ce]

/-- The microprogram of an instruction from t2 on (R167); a reserved opcode has none (R76). -/
def microprogram : Instr → Option (List (List ControlLine))
  | .nop => some [[.nxt]]
  | .lda _ => some [[.io, .mi], [.ro, .ai], [.nxt]]
  | .add _ => some [[.io, .mi], [.ro, .bi], [.sumOut, .ai, .fi], [.nxt]]
  | .sub _ => some [[.io, .mi], [.ro, .bi], [.so, .sumOut, .ai, .fi], [.nxt]]
  | .sta _ => some [[.io, .mi], [.ao, .ri], [.nxt]]
  | .ldi _ => some [[.io, .ai], [.nxt]]
  | .jmp _ => some [[.io, .ci], [.nxt]]
  | .jc _ => some [[.jc], [.nxt]]
  | .jz _ => some [[.jz], [.nxt]]
  | .reserved1001 _ => none
  | .reserved1010 _ => none
  | .reserved1011 _ => none
  | .reserved1100 _ => none
  | .clr => some [[.oc], [.nxt]]
  | .out => some [[.ao, .oi], [.nxt]]
  | .hlt => some [[.hlt], [.nxt]]

/-- The lines asserted at step `n` while IR holds a word of the instruction `i` (R165): the fetch at t0 and t1, whatever
`i` is, then the microprogram. None past its end (93_implementation_defined.md U5) and for a reserved opcode. -/
def linesAt (i : Instr) (n : StepCode) : Option (List ControlLine) :=
  if n = 0#3 then some fetchLinesT0
  else if n = 1#3 then some fetchLinesT1
  else (microprogram i).bind fun rows => rows[n.toNat - 2]?

/-- The control word selected by `(IR[7:4], T)` (R163). -/
def controlWordAt (i : Instr) (n : StepCode) : Option ControlWord := (linesAt i n).map wordOfLines

/-- What the bus carries within one micro-step (R163, R40). -/
inductive Bus where
  /-- No Out line is asserted: there is no value (93_implementation_defined.md U10). -/
  | floating
  /-- One Out line is asserted. -/
  | value (v : Byte)
  /-- Two Out lines are asserted: R163 gives no value. -/
  | contention
deriving DecidableEq, Repr

/-- The ALU's output for the A and B of this state, with the line SO as its subtract select (R151, R152). -/
def aluOnBus (cw : ControlWord) (s : State) : Byte := aluResult s.a s.b (asserted cw .so)

/-- The values the asserted Out lines put on the bus (R143, R146, R148, R150, R151, R159). -/
def drivers (cw : ControlWord) (s : State) : List Byte :=
  (if asserted cw .ro then [s.memRead s.mar] else []) ++
  (if asserted cw .io then [immediate (parameterField s.ir)] else []) ++
  (if asserted cw .ao then [s.a] else []) ++
  (if asserted cw .bo then [s.b] else []) ++
  (if asserted cw .sumOut then [aluOnBus cw s] else []) ++
  (if asserted cw .co then [wordOfFields 0b0000#4 s.pc] else [])

/-- The bus under the asserted Out lines of a word, each with the value its own rule gives it. -/
def busOf (cw : ControlWord) (s : State) : Bus :=
  match drivers cw s with
  | [] => .floating
  | [v] => .value v
  | _ => .contention

/-- Some line loads from the bus (R164). -/
def readsBus (cw : ControlWord) : Bool :=
  asserted cw .mi || asserted cw .ri || asserted cw .ii || asserted cw .ai || asserted cw .bi || asserted cw .oi ||
  asserted cw .ci

/-- The counter after a micro-step. Where R163 lists several loads of it, the last one listed decides (log 12); no
control word of this machine asserts two of them. -/
def latchPc (cw : ControlWord) (bus : Byte) (s : State) : Addr :=
  if asserted cw .jz && s.zf then parameterField s.ir
  else if asserted cw .jc && s.cf then parameterField s.ir
  else if asserted cw .ce then s.pc + 1#4
  else if asserted cw .ci then parameterField bus
  else s.pc

/-- The step counter after a micro-step: NXT returns it to t0, HLT leaves what its clock edge left (R169; log 1), any
other word advances it (R39, R163). -/
def latchT (cw : ControlWord) (s : State) : StepCode :=
  if asserted cw .hlt then s.haltedT s.t
  else if asserted cw .nxt then 0#3
  else s.t + 1#3

/-- All loads of one micro-step happen together, each from the values before it (R163, R116; log 10). `bus` is read
only under a line of `readsBus`. Each write to OUT is appended to the trace (R35). -/
def latch (cw : ControlWord) (bus : Byte) (s : State) : State where
  a := if asserted cw .ai then bus else s.a
  b := if asserted cw .bi then bus else s.b
  pc := latchPc cw bus s
  cf := if asserted cw .fi then aluCarry s.a s.b (asserted cw .so) else s.cf
  zf := if asserted cw .fi then zeroFlag (aluOnBus cw s) else s.zf
  ram := if asserted cw .ri then s.ram.write s.mar.toNat bus else s.ram
  out := if asserted cw .oc then 0x00#8 else if asserted cw .oi then bus else s.out
  trace := s.trace ++
    (if asserted cw .oc then [0x00#8] else if asserted cw .oi then [bus] else [])
  halt := s.halt || asserted cw .hlt
  ir := if asserted cw .ii then bus else s.ir
  mar := if asserted cw .mi then parameterField bus else s.mar
  t := latchT cw s
  draws := if asserted cw .hlt then s.draws + 1 else s.draws

/-- One micro-step under a control word (R163): the bus of its used lines, BO not among them (R161), then the loads, which
name no unused line. With HALT = 1 the clock is disconnected and there is none (R144). -/
def microStep (cw : ControlWord) (s : State) : Result :=
  if s.halt then .fault .halted
  else
    match busOf (usedLines cw) s with
    | .contention => .refused .busContention
    | .value v => .next (latch cw v s)
    | .floating => if readsBus cw then .refused .busFloating else .next (latch cw 0x00#8 s)

/-- One clock of the machine: the micro-step of the control word that IR and T select. A reserved opcode has no
microprogram: from t2 on it is IllegalOpcode, with the word in IR and the address in MAR that the fetch left (R185). -/
def clock (s : State) : Result :=
  if s.halt then .fault .halted
  else
    match controlWordAt (decode s.ir) s.t with
    | some cw => microStep cw s
    | none => if (decode s.ir).wellFormed then .refused .noControlWord else .fault (.illegalOpcode s.ir s.mar)

/-- Clock on until the machine halts or T is back at t0, at most `n` times. -/
def clockToBoundary : Nat → State → Result
  | 0, _ => .refused .noControlWord
  | n + 1, s =>
    match clock s with
    | .next s' => if s'.halt || s'.t == 0#3 then .next s' else clockToBoundary n s'
    | .fault f => .fault f
    | .refused r => .refused r

/-- One instruction run at the micro-step level: "a maximum of 8 micro-steps" (R165, R170). -/
def microInstr (s : State) : Result := clockToBoundary 8 s

/-- The clock cycles the micro-steps to the next boundary cost, over at most `n` of them: every step but the one that
holds NXT costs one (R171). -/
def microCyclesWithin : Nat → State → Nat
  | 0, _ => 0
  | n + 1, s =>
    match clock s with
    | .next s' =>
      if s'.halt then 1
      else if s'.t == 0#3 then 0
      else 1 + microCyclesWithin n s'
    | .fault _ => 0
    | .refused _ => 0

/-- The clock cycles of one instruction at the micro-step level (R171). -/
def microCycles (s : State) : Nat := microCyclesWithin 8 s

end Sys2Proof.Machine
end

