-- ==== Sys2Proof/Machine/Timing.lean ====
section
/-! DEFINITION. The documented clock cycles: rules R207 and R208 of spec/70_reset_and_hazards.md. No rule of the step
depends on them (R209). -/

namespace Sys2Proof.Machine

/-- "Clock Cycles" of each instruction (R207); a reserved opcode has none. The same on every execution (R208). -/
def clockCycles : Instr → Option Nat
  | .nop => some 2
  | .lda _ => some 4
  | .add _ => some 5
  | .sub _ => some 5
  | .sta _ => some 4
  | .ldi _ => some 3
  | .jmp _ => some 3
  | .jc _ => some 3
  | .jz _ => some 3
  | .reserved1001 _ => none
  | .reserved1010 _ => none
  | .reserved1011 _ => none
  | .reserved1100 _ => none
  | .clr => some 3
  | .out => some 3
  | .hlt => some 3

/-- The cycle count of the first `k` steps of a run: "the sum over the instructions it executes" (R208). None where a
step executes no instruction. -/
def runCycles : Nat → State → Option Nat
  | 0, _ => some 0
  | k + 1, s =>
    match step s, clockCycles (decode s.fetchWord) with
    | .next s', some n => (runCycles k s').map (n + ·)
    | _, _ => none

end Sys2Proof.Machine
end

