-- ==== Sys2Proof/Safety.lean ====
section
/-! DEFINITION. What a run is, how it ends and when it is safe (rules R184 and R185 of spec/60_exceptions.md, rules R210
to R214 of spec/70_reset_and_hazards.md), and the predicates on states that the statements use. -/

namespace Sys2Proof.Machine

/-- `k` steps from `s` (R210: the run from a state is one determined sequence). -/
def runSteps (k : Nat) (s : State) : Result := core.run k s

/-- `s'` is reached from `s` in some number of steps. -/
def Reaches (s s' : State) : Prop := ∃ k, runSteps k s = .next s'

/-- The run from `s` ends in `s'`: it is reached and HALT = 1 (R212). -/
def EndsIn (s s' : State) : Prop := Reaches s s' ∧ s'.halt = true

/-- No reachable state fetches a reserved opcode (R185: "A claim about a program holds only if no reachable state
fetches such a word"). -/
def SafeRun (s : State) : Prop := ∀ s' ir addr, Reaches s s' → step s' ≠ .fault (.illegalOpcode ir addr)

/-- An instruction boundary (R39): T = 0 while the machine runs; a halted machine stands with T = 2 or 3 (R169). -/
def AtBoundary (s : State) : Prop :=
  (s.halt = false → s.t = 0#3) ∧ (s.halt = true → s.t = 2#3 ∨ s.t = 3#3)

/-- The display shows the last value written since the launch, if any was written (R34, R35). -/
def DisplayMatchesTrace (s : State) : Prop := s.trace = [] ∨ s.trace.getLast? = some s.out

/-- The state invariant of the instruction level. -/
def Inv (s : State) : Prop := s.ram.wf = true ∧ AtBoundary s ∧ DisplayMatchesTrace s

/-- The state invariant of the micro-step level: a running machine stands in the fetch or at a step its instruction's
microprogram has (R165), unless IR holds a reserved word, which has no microprogram (R76). -/
def MicroInv (s : State) : Prop :=
  s.ram.wf = true ∧ DisplayMatchesTrace s ∧
    (s.halt = false → (decode s.ir).wellFormed = true → (linesAt (decode s.ir) s.t).isSome = true)

/-- Two states that agree on everything an instruction can read or the host can see: all but B, IR and MAR
(R24, R37, R38: each is overwritten before any use). -/
def AgreeButScratch (s s' : State) : Prop :=
  s.a = s'.a ∧ s.pc = s'.pc ∧ s.cf = s'.cf ∧ s.zf = s'.zf ∧ s.ram = s'.ram ∧ s.out = s'.out ∧ s.trace = s'.trace ∧
    s.halt = s'.halt ∧ s.t = s'.t ∧ s.draws = s'.draws

/-- Two results are alike: next states that agree but for B, IR and MAR, or the same stop. -/
def AlikeResults : Result → Result → Prop
  | .next s, .next s' => AgreeButScratch s s'
  | .fault f, .fault f' => f = f'
  | .refused r, .refused r' => r = r'
  | _, _ => False

end Sys2Proof.Machine
end

