-- ==== Sys2Proof/Certificates/Slice0/Obligations.lean ====
section
/-! DEFINITION. The statements for the provers. Each follows the rules of spec/ its docstring names; where a clause rests
on a decision of the spec's own (92_eei_decisions.md) or on a log entry of the model, the docstring says so. `exec` is the
execute phase of rule R9: pc already holds the address of the following instruction. -/

open Sys2Proof Sys2Proof.Machine

/-! ### Encoding -/

/-- Words written out bit by bit from the encodings of R74, with the examples of R77 and R81, decode and encode as the
opcode map says: one for each of the sixteen rows, and one with ignored bits set for NOP, CLR, OUT and HLT. -/
def Obligations.SpecWordsDecodeAndEncode : Prop :=
  decode 0b00000000#8 = .nop ∧ decode 0b00001111#8 = .nop ∧
  decode 0b00011110#8 = .lda 14#4 ∧ decode 0b00101111#8 = .add 15#4 ∧ decode 0b00111100#8 = .sub 12#4 ∧
  decode 0b01001101#8 = .sta 13#4 ∧ decode 0b01010101#8 = .ldi 5#4 ∧ decode 0b01100001#8 = .jmp 1#4 ∧
  decode 0b01110101#8 = .jc 5#4 ∧ decode 0b10000101#8 = .jz 5#4 ∧
  decode 0b10011111#8 = .reserved1001 15#4 ∧ decode 0b10100101#8 = .reserved1010 5#4 ∧
  decode 0b10110000#8 = .reserved1011 0#4 ∧ decode 0b11001111#8 = .reserved1100 15#4 ∧
  decode 0b11010000#8 = .clr ∧ decode 0b11010111#8 = .clr ∧ decode 0b11100000#8 = .out ∧
  decode 0b11100011#8 = .out ∧ decode 0b11110000#8 = .hlt ∧ decode 0b11111111#8 = .hlt ∧
  encode .nop = 0x00#8 ∧ encode .clr = 0xD0#8 ∧ encode .out = 0xE0#8 ∧ encode .hlt = 0xF0#8 ∧
  encode (.lda 14#4) = 0x1E#8 ∧ encode (.ldi 5#4) = 0x55#8 ∧ encode (.jz 5#4) = 0x85#8

/-- `decode(encode(t)) = t` for every term (R81, derived there from R74 and R77), every operand at every value, and so
does reading the byte off the front of any list of bytes. -/
def Obligations.DecodeOfEncodeIsIdentity : Prop :=
  (∀ i : Instr, decode (encode i) = i) ∧
  ∀ (i : Instr) (rest : List Byte), decodeBytes (encode i :: rest) = .ok (i, rest)

/-- The other direction of R81: `encode(decode(w))` is `w`, or `w & 0xF0` for NOP, CLR, OUT and HLT, whose parameter
bits are ignored (R77, decision D10). -/
def Obligations.EncodeOfDecodeKeepsWord : Prop :=
  ∀ w : Byte, encode (decode w) =
    if decode w = .nop ∨ decode w = .clr ∨ decode w = .out ∨ decode w = .hlt then w &&& 0xF0#8 else w

/-- R75 with the match and mask columns of R74: every word is covered by exactly one row of the opcode map, the row of
the instruction it decodes to, and 192 of the 256 words spell one of the twelve instructions. -/
def Obligations.EveryWordHasExactlyOneRow : Prop :=
  (∀ w : Byte, (encodingTable.filter fun r => r.covers w).map EncodingRow.mnemonic = [(decode w).mnemonic]) ∧
  ((List.range 256).filter fun n => (decode (BitVec.ofNat 8 n)).wellFormed).length = 192

/-- R77 (decision D10): two words with the same high nibble 0000, 1101, 1110 or 1111 behave identically. Stored at pc,
they step to states that differ at most in IR and in the cell at pc itself. -/
def Obligations.IgnoredParameterBitsHaveNoEffect : Prop :=
  ∀ (s : State) (w w' : Byte), s.ram.wf = true → s.halt = false →
    opcodeField w = opcodeField w' →
    (opcodeField w = 0b0000#4 ∨ opcodeField w = 0b1101#4 ∨ opcodeField w = 0b1110#4 ∨ opcodeField w = 0b1111#4) →
    ∃ t t' : State, step (s.memWrite s.pc w) = .next t ∧ step (s.memWrite s.pc w') = .next t' ∧
      t.a = t'.a ∧ t.b = t'.b ∧ t.pc = t'.pc ∧ t.cf = t'.cf ∧ t.zf = t'.zf ∧ t.out = t'.out ∧ t.trace = t'.trace ∧
      t.halt = t'.halt ∧ t.mar = t'.mar ∧ t.t = t'.t ∧ ∀ x : Addr, x ≠ s.pc → t.memRead x = t'.memRead x

/-! ### Memory, launch and reset -/

/-- R52 and R53. MemWrite sets one cell, leaves the other fifteen and every register unchanged, and MemRead returns the
cell; at the micro-step level the read is MI with the address on the bus, then RO, which leaves MAR = the address, and
the write is MI with the address on the bus, then RI with the value on the bus. -/
def Obligations.MemReadAndMemWrite : Prop :=
  (∀ (s : State) (x : Addr) (v : Byte), s.ram.wf = true →
    (s.memWrite x v).memRead x = v ∧ (∀ y : Addr, y ≠ x → (s.memWrite x v).memRead y = s.memRead y) ∧
    { s.memWrite x v with ram := s.ram } = s) ∧
  ∀ s : State, s.halt = false → ∃ s₁ : State, microStep (wordOfLines [.io, .mi]) s = .next s₁ ∧
    (∃ r : State, microStep (wordOfLines [.ro, .ai]) s₁ = .next r ∧ r.a = s.memRead (parameterField s.ir) ∧
      r.mar = parameterField s.ir ∧ ∀ y : Addr, r.memRead y = s.memRead y) ∧
    ∃ w : State, microStep (wordOfLines [.ao, .ri]) s₁ = .next w ∧
      ∀ y : Addr, w.memRead y = (s.memWrite (parameterField s.ir) s.a).memRead y

/-- The RAM is its sixteen cells and nothing else (R41, R50): two memories in the model's canonical form that read alike
at all sixteen addresses are equal. -/
def Obligations.CanonicalMemoriesReadingAlikeAreEqual : Prop :=
  ∀ m m' : Memory, m.wf = true → m'.wf = true → (∀ x : Addr, m.read x.toNat = m'.read x.toNat) → m = m'

/-- The launch state of R204, for every value of the launch parameters and of INIT_RAM (decisions D11, D12, D13). -/
def Obligations.LaunchStateHoldsItsParameters : Prop :=
  ∀ (p : Config.Launch) (f : Addr → Byte),
    (State.launch p f).pc = 0#4 ∧ (State.launch p f).halt = false ∧ (State.launch p f).t = 0#3 ∧
    (State.launch p f).trace = [] ∧ (State.launch p f).a = p.initA ∧ (State.launch p f).b = p.initB ∧
    (State.launch p f).cf = p.initCf ∧ (State.launch p f).zf = p.initZf ∧ (State.launch p f).out = p.initOut ∧
    (State.launch p f).ir = p.initIr ∧ (State.launch p f).mar = p.initMar ∧
    ∀ x : Addr, (State.launch p f).memRead x = f x

/-- State.reset has pc = 0, HALT = 0, T = 0 and an empty trace (R201, decision D11; R35), and it is one of the launch
states: that of zero launch parameters and zero RAM, which is the model's choice (logs 2 and 3). -/
def Obligations.ResetIsOneOfTheLaunches : Prop :=
  State.reset.pc = 0#4 ∧ State.reset.halt = false ∧ State.reset.t = 0#3 ∧ State.reset.trace = [] ∧
  State.reset = State.launch Config.zeroLaunch (fun _ => 0x00#8)

/-- Reset as the host's event (R94, R201 to R204; decisions D11, D12, D13): it ends a halt, so that the machine fetches at
address 0 again, and leaves every RAM cell as it was; A, B, CF, ZF, OUT, IR and MAR take the launch parameters, whatever
they are, and the trace of the new launch is empty (R35, decision D14). -/
def Obligations.ResetEventRestartsAndKeepsRam : Prop :=
  ∀ (p : Config.Launch) (s : State),
    (pressReset p s).halt = false ∧ (pressReset p s).pc = 0#4 ∧ (pressReset p s).t = 0#3 ∧
    (pressReset p s).a = p.initA ∧ (pressReset p s).b = p.initB ∧ (pressReset p s).cf = p.initCf ∧
    (pressReset p s).zf = p.initZf ∧ (pressReset p s).out = p.initOut ∧ (pressReset p s).ir = p.initIr ∧
    (pressReset p s).mar = p.initMar ∧ (pressReset p s).trace = [] ∧
    (∀ x : Addr, (pressReset p s).memRead x = s.memRead x) ∧
    step (pressReset p s) = exec (decode (s.memRead 0#4)) (pressReset p s).fetched

/-- The invariant of the instruction level holds at every launch and at State.reset, and the reset event keeps it. -/
def Obligations.InvariantHoldsAtLaunch : Prop :=
  Inv State.reset ∧ (∀ (p : Config.Launch) (f : Addr → Byte), Inv (State.launch p f)) ∧
  ∀ (p : Config.Launch) (s : State), Inv s → Inv (pressReset p s)

/-- Every step keeps the invariant: the memory stays canonical, T is 0 at the boundary of a running machine and 2 or 3 in
a halted one (R39, R169), and OUT is the last value of the output trace (R34, R35). -/
def Obligations.EveryStepKeepsInvariant : Prop :=
  ∀ s s' : State, Inv s → step s = .next s' → Inv s'

/-! ### The step -/

/-- R9: a running machine fetches the word at pc into IR, leaves MAR = the old pc, advances pc modulo 16, and executes
the decoded instruction (that the advance is inside the fetch is decision D3). -/
def Obligations.StepRunsTheDecodedInstruction : Prop :=
  ∀ (s : State) (i : Instr), s.halt = false → decode (s.memRead s.pc) = i →
    step s = exec i { s with ir := s.memRead s.pc, mar := s.pc, pc := s.pc + 1#4 }

/-- R183 and R184: exactly three outcomes, HALT tested first, then the opcode alone. The names `fault halted` and
`fault illegalOpcode` for Halted and IllegalOpcode are the model's (logs 5 and 6); the fault on a reserved opcode is
decision D9. It records the word and the address it was fetched from (R185). -/
def Obligations.StepHasThreeOutcomes : Prop :=
  ∀ s : State,
    (s.halt = true → step s = .fault .halted) ∧
    (s.halt = false → 9 ≤ (opcodeField (s.memRead s.pc)).toNat → (opcodeField (s.memRead s.pc)).toNat ≤ 12 →
      step s = .fault (.illegalOpcode (s.memRead s.pc) s.pc)) ∧
    (s.halt = false → ((opcodeField (s.memRead s.pc)).toNat ≤ 8 ∨ 13 ≤ (opcodeField (s.memRead s.pc)).toNat) →
      ∃ t : State, step s = .next t)

/-- R93: a halted machine has no successor, at once or ever; a machine that runs is never stopped by `fault halted`, so a
halt is the only way a run ends (R184; the name is the model's, log 5). -/
def Obligations.HaltedMachineHasNoSuccessor : Prop :=
  (∀ (s t : State) (k : Nat), s.halt = true → step s ≠ .next t ∧ runSteps (k + 1) s ≠ .next t) ∧
  ∀ s : State, step s = .fault .halted ↔ s.halt = true

/-- R180: every one of the twelve instructions completes on every input. -/
def Obligations.EveryInstructionCompletes : Prop :=
  ∀ (i : Instr) (s : State), i.wellFormed = true → ∃ t : State, exec i s = .next t

/-- R185 (decision D9): each of the four unassigned opcodes is IllegalOpcode, with the whole word and the address it was
fetched from, one before pc modulo 16. -/
def Obligations.ReservedOpcodesAreIllegal : Prop :=
  ∀ (p : Nibble) (s : State),
    exec (.reserved1001 p) s = .fault (.illegalOpcode (0b1001#4 ++ p) (s.pc - 1#4)) ∧
    exec (.reserved1010 p) s = .fault (.illegalOpcode (0b1010#4 ++ p) (s.pc - 1#4)) ∧
    exec (.reserved1011 p) s = .fault (.illegalOpcode (0b1011#4 ++ p) (s.pc - 1#4)) ∧
    exec (.reserved1100 p) s = .fault (.illegalOpcode (0b1100#4 ++ p) (s.pc - 1#4))

/-! ### The twelve instructions: what each writes, and that it leaves all else alone -/

/-- R90, NOP: all sixteen words 0x0x are NOP and the assembler emits 0x00; microprogram; two clock cycles; the execute
phase does nothing; the whole step advances pc modulo 16 (IR and MAR are the fetch's, R9) and changes nothing else. -/
def Obligations.NopOnlyAdvances : Prop :=
  (∀ w : Byte, w &&& 0xF0#8 = 0x00#8 → decode w = .nop) ∧ encode .nop = 0x00#8 ∧
  microprogram .nop = some [[.nxt]] ∧ clockCycles .nop = some 2 ∧
  (∀ s : State, exec .nop s = .next s) ∧
  ∀ s : State, s.halt = false → s.memRead s.pc &&& 0xF0#8 = 0x00#8 →
    step s = .next { s with pc := s.pc + 1#4, ir := s.memRead s.pc, mar := s.pc }

/-- HLT (40_control_nop_hlt.md, R91 and R92): all sixteen words 0xFx; microprogram; three cycles; the execute phase
completes with HALT = 1, pc as the fetch left it, and every other register, flag, output and RAM cell unchanged. T of the
halted machine is 2 or 3 and no one of the two: the model's free value (R169, log 1). -/
def Obligations.HltHaltsAndKeepsAllElse : Prop :=
  (∀ w : Byte, w &&& 0xF0#8 = 0xF0#8 → decode w = .hlt) ∧ encode .hlt = 0xF0#8 ∧
  microprogram .hlt = some [[.hlt], [.nxt]] ∧ clockCycles .hlt = some 3 ∧
  ∀ s : State, ∃ t : State, exec .hlt s = .next t ∧ t.halt = true ∧ (t.t = 2#3 ∨ t.t = 3#3) ∧
    t.a = s.a ∧ t.b = s.b ∧ t.pc = s.pc ∧ t.cf = s.cf ∧ t.zf = s.zf ∧ t.out = s.out ∧ t.trace = s.trace ∧
    t.ir = s.ir ∧ t.mar = s.mar ∧ ∀ x : Addr, t.memRead x = s.memRead x

/-- R100, LDA: all sixteen words 0x1x, the low nibble the address; microprogram; four cycles; A takes the whole cell,
MAR keeps the operand's address (R38), and every other register, flag, output and RAM cell is unchanged. -/
def Obligations.LdaLoadsTheCell : Prop :=
  (∀ w : Byte, w &&& 0xF0#8 = 0x10#8 → decode w = .lda (w.extractLsb' 0 4)) ∧
  (∀ aaaa : Addr, microprogram (.lda aaaa) = some [[.io, .mi], [.ro, .ai], [.nxt]] ∧
    clockCycles (.lda aaaa) = some 4) ∧
  ∀ (aaaa : Addr) (s : State), ∃ t : State, exec (.lda aaaa) s = .next t ∧
    t.a = s.memRead aaaa ∧ t.mar = aaaa ∧
    t.b = s.b ∧ t.pc = s.pc ∧ t.cf = s.cf ∧ t.zf = s.zf ∧ t.out = s.out ∧ t.trace = s.trace ∧ t.halt = s.halt ∧
    t.ir = s.ir ∧ t.t = s.t ∧ ∀ x : Addr, t.memRead x = s.memRead x

/-- R101, STA: all sixteen words 0x4x; microprogram; four cycles; the addressed cell (the one `cellOf` names, which the
meaning stores to) takes all of A, the other fifteen keep their values, MAR keeps the operand's address (R38), and every
other register, flag and output is unchanged. -/
def Obligations.StaStoresTheAccumulator : Prop :=
  (∀ w : Byte, w &&& 0xF0#8 = 0x40#8 → decode w = .sta (w.extractLsb' 0 4)) ∧
  (∀ aaaa : Addr, microprogram (.sta aaaa) = some [[.io, .mi], [.ao, .ri], [.nxt]] ∧
    clockCycles (.sta aaaa) = some 4) ∧
  ∀ (aaaa : Addr) (s : State), s.ram.wf = true → ∃ t : State, exec (.sta aaaa) s = .next t ∧
    t.memRead aaaa = s.a ∧ (∀ x : Addr, x.toNat ≠ cellOf aaaa → t.memRead x = s.memRead x) ∧ t.ram.wf = true ∧
    t.mar = aaaa ∧ t.a = s.a ∧ t.b = s.b ∧ t.pc = s.pc ∧ t.cf = s.cf ∧ t.zf = s.zf ∧ t.out = s.out ∧
    t.trace = s.trace ∧ t.halt = s.halt ∧ t.ir = s.ir ∧ t.t = s.t

/-- LDI (41_load_store.md, R102): all sixteen words 0x5x; microprogram; three cycles; A takes the immediate, 0 to 15, and
all else is unchanged. That the upper four bits are cleared is decision D5 of the spec (log 7). -/
def Obligations.LdiLoadsTheImmediate : Prop :=
  (∀ w : Byte, w &&& 0xF0#8 = 0x50#8 → decode w = .ldi (w.extractLsb' 0 4)) ∧
  (∀ iiii : Nibble, microprogram (.ldi iiii) = some [[.io, .ai], [.nxt]] ∧ clockCycles (.ldi iiii) = some 3) ∧
  ∀ (iiii : Nibble) (s : State), ∃ t : State, exec (.ldi iiii) s = .next t ∧ t.a.toNat = iiii.toNat ∧
    t.b = s.b ∧ t.pc = s.pc ∧ t.cf = s.cf ∧ t.zf = s.zf ∧ t.out = s.out ∧ t.trace = s.trace ∧ t.halt = s.halt ∧
    t.ir = s.ir ∧ t.mar = s.mar ∧ t.t = s.t ∧ ∀ x : Addr, t.memRead x = s.memRead x

/-- ADD (42_arithmetic.md, R110 and R112 to R117): all sixteen words 0x2x; microprogram; five cycles; B takes the cell,
A the sum modulo 256, CF = 1 iff the sum is 256 or more (decision D6, log 8; C_in low is D22, log 11), ZF = 1 iff the
8-bit result is 0 (D7, log 9), both from the ALU output that A takes (D8, log 10), MAR the operand's address, and all
else is unchanged. -/
def Obligations.AddComputesSumAndFlags : Prop :=
  (∀ w : Byte, w &&& 0xF0#8 = 0x20#8 → decode w = .add (w.extractLsb' 0 4)) ∧
  (∀ aaaa : Addr, microprogram (.add aaaa) = some [[.io, .mi], [.ro, .bi], [.sumOut, .ai, .fi], [.nxt]] ∧
    clockCycles (.add aaaa) = some 5) ∧
  ∀ (aaaa : Addr) (s : State), ∃ t : State, exec (.add aaaa) s = .next t ∧ t.b = s.memRead aaaa ∧
    t.a.toNat = (s.a.toNat + (s.memRead aaaa).toNat) % 256 ∧
    (t.cf = true ↔ 256 ≤ s.a.toNat + (s.memRead aaaa).toNat) ∧ (t.zf = true ↔ t.a = 0x00#8) ∧
    t.mar = aaaa ∧ t.pc = s.pc ∧ t.out = s.out ∧ t.trace = s.trace ∧ t.halt = s.halt ∧ t.ir = s.ir ∧ t.t = s.t ∧
    ∀ x : Addr, t.memRead x = s.memRead x

/-- SUB (42_arithmetic.md, R111 and R112 to R117): all sixteen words 0x3x; microprogram; five cycles; B takes the cell,
A the difference A - M modulo 256, CF = 1 iff A >= M, that is no borrow (decision D6, log 8), ZF = 1 iff the 8-bit
result is 0 (D7, log 9), both from the ALU output that A takes (D8, log 10), MAR the operand's address, and all else is
unchanged. -/
def Obligations.SubComputesDifferenceAndFlags : Prop :=
  (∀ w : Byte, w &&& 0xF0#8 = 0x30#8 → decode w = .sub (w.extractLsb' 0 4)) ∧
  (∀ aaaa : Addr, microprogram (.sub aaaa) = some [[.io, .mi], [.ro, .bi], [.so, .sumOut, .ai, .fi], [.nxt]] ∧
    clockCycles (.sub aaaa) = some 5) ∧
  ∀ (aaaa : Addr) (s : State), ∃ t : State, exec (.sub aaaa) s = .next t ∧ t.b = s.memRead aaaa ∧
    (t.a.toNat : Int) = ((s.a.toNat : Int) - (s.memRead aaaa).toNat) % 256 ∧
    (t.cf = true ↔ (s.memRead aaaa).toNat ≤ s.a.toNat) ∧ (t.zf = true ↔ s.a = s.memRead aaaa) ∧
    t.mar = aaaa ∧ t.pc = s.pc ∧ t.out = s.out ∧ t.trace = s.trace ∧ t.halt = s.halt ∧ t.ir = s.ir ∧ t.t = s.t ∧
    ∀ x : Addr, t.memRead x = s.memRead x

/-- R120, JMP: all sixteen words 0x6x; microprogram; three cycles; pc takes the address, from every state, and nothing
else changes. A JMP to its own address is an endless loop: the run never halts and changes no state but what the fetch
leaves in IR and MAR. -/
def Obligations.JmpAlwaysJumps : Prop :=
  (∀ w : Byte, w &&& 0xF0#8 = 0x60#8 → decode w = .jmp (w.extractLsb' 0 4)) ∧
  (∀ aaaa : Addr, microprogram (.jmp aaaa) = some [[.io, .ci], [.nxt]] ∧ clockCycles (.jmp aaaa) = some 3) ∧
  (∀ (aaaa : Addr) (s : State), exec (.jmp aaaa) s = .next { s with pc := aaaa }) ∧
  ∀ (s : State) (k : Nat), s.halt = false → s.memRead s.pc = 0b0110#4 ++ s.pc →
    ∃ t : State, runSteps k s = .next t ∧ t = { s with ir := t.ir, mar := t.mar }

/-- JC (43_jumps.md, R121): all sixteen words 0x7x; microprogram; three cycles, taken or not; pc takes the address iff
CF = 1 and keeps the fall-through address otherwise; nothing else changes, CF among it. -/
def Obligations.JcJumpsIffCarry : Prop :=
  (∀ w : Byte, w &&& 0xF0#8 = 0x70#8 → decode w = .jc (w.extractLsb' 0 4)) ∧
  (∀ aaaa : Addr, microprogram (.jc aaaa) = some [[.jc], [.nxt]] ∧ clockCycles (.jc aaaa) = some 3) ∧
  ∀ (aaaa : Addr) (s : State),
    (s.cf = true → exec (.jc aaaa) s = .next { s with pc := aaaa }) ∧
    (s.cf = false → exec (.jc aaaa) s = .next s)

/-- JZ (43_jumps.md, R122): all sixteen words 0x8x; microprogram; three cycles, taken or not; pc takes the address iff
ZF = 1 and keeps the fall-through address otherwise; nothing else changes, ZF among it. -/
def Obligations.JzJumpsIffZero : Prop :=
  (∀ w : Byte, w &&& 0xF0#8 = 0x80#8 → decode w = .jz (w.extractLsb' 0 4)) ∧
  (∀ aaaa : Addr, microprogram (.jz aaaa) = some [[.jz], [.nxt]] ∧ clockCycles (.jz aaaa) = some 3) ∧
  ∀ (aaaa : Addr) (s : State),
    (s.zf = true → exec (.jz aaaa) s = .next { s with pc := aaaa }) ∧
    (s.zf = false → exec (.jz aaaa) s = .next s)

/-- CLR (44_output.md, R130): all sixteen words 0xDx; microprogram; three cycles; OUT takes 0x00 (decision D14) and the
trace grows by it, even where OUT was 0; nothing else changes. -/
def Obligations.ClrClearsTheOutput : Prop :=
  (∀ w : Byte, w &&& 0xF0#8 = 0xD0#8 → decode w = .clr) ∧ encode .clr = 0xD0#8 ∧
  microprogram .clr = some [[.oc], [.nxt]] ∧ clockCycles .clr = some 3 ∧
  ∀ s : State, exec .clr s = .next { s with out := 0x00#8, trace := s.trace ++ [0x00#8] }

/-- OUT (44_output.md, R131): all sixteen words 0xEx; microprogram; three cycles; OUT takes all of A and the trace grows
by it (8 bits and the trace are decision D14); nothing else changes. -/
def Obligations.OutShowsTheAccumulator : Prop :=
  (∀ w : Byte, w &&& 0xF0#8 = 0xE0#8 → decode w = .out) ∧ encode .out = 0xE0#8 ∧
  microprogram .out = some [[.ao, .oi], [.nxt]] ∧ clockCycles .out = some 3 ∧
  ∀ s : State, exec .out s = .next { s with out := s.a, trace := s.trace ++ [s.a] }

/-! ### Whole-machine rules: which instructions change which state -/

/-- The table of R28 (derived there): pc after a step. -/
def Obligations.NextPcFollowsTheTable : Prop :=
  ∀ s t : State, step s = .next t → t.pc =
    match decode (s.memRead s.pc) with
    | .jmp p => p
    | .jc p => if s.cf then p else s.pc + 1#4
    | .jz p => if s.zf then p else s.pc + 1#4
    | _ => s.pc + 1#4

/-- R21 and the table of R20: A is written by LDA, LDI, ADD and SUB and by nothing else. -/
def Obligations.OnlyFourInstructionsWriteA : Prop :=
  ∀ s t : State, step s = .next t →
    (∀ p : Nibble, decode (s.memRead s.pc) ≠ .lda p ∧ decode (s.memRead s.pc) ≠ .ldi p ∧
      decode (s.memRead s.pc) ≠ .add p ∧ decode (s.memRead s.pc) ≠ .sub p) → t.a = s.a

/-- R22: B is written only by ADD and SUB, which load it with the addressed cell before the ALU result is taken (the
result is that of the new B); every other instruction leaves it unchanged. -/
def Obligations.OnlyAddAndSubWriteB : Prop :=
  ∀ s t : State, step s = .next t →
    (∀ p : Addr, decode (s.memRead s.pc) = .add p → t.b = s.memRead p ∧ t.a = aluResult s.a t.b false) ∧
    (∀ p : Addr, decode (s.memRead s.pc) = .sub p → t.b = s.memRead p ∧ t.a = aluResult s.a t.b true) ∧
    ((∀ p : Addr, decode (s.memRead s.pc) ≠ .add p ∧ decode (s.memRead s.pc) ≠ .sub p) → t.b = s.b)

/-- R30: the flags persist until changed by a flag-modifying instruction, and those are exactly ADD and SUB, which write
both together from the ALU whatever they were; below, the line FI is asserted in the ADD and SUB microprograms only, in
their step t4. That both flags are those of the ALU with the old A and the addressed cell is decision D8 (log 10), what
CF and ZF mean are D6 and D7 (logs 8 and 9), and C_in low for ADD is D22 (log 11): R30 says none of these. -/
def Obligations.FlagsPersistExceptAddAndSub : Prop :=
  (∀ s t : State, step s = .next t →
    (∀ p : Addr, decode (s.memRead s.pc) = .add p →
      t.cf = aluCarry s.a (s.memRead p) false ∧ t.zf = zeroFlag (aluResult s.a (s.memRead p) false)) ∧
    (∀ p : Addr, decode (s.memRead s.pc) = .sub p →
      t.cf = aluCarry s.a (s.memRead p) true ∧ t.zf = zeroFlag (aluResult s.a (s.memRead p) true)) ∧
    ((∀ p : Addr, decode (s.memRead s.pc) ≠ .add p ∧ decode (s.memRead s.pc) ≠ .sub p) →
      t.cf = s.cf ∧ t.zf = s.zf)) ∧
  ∀ (i : Instr) (n : StepCode) (cw : ControlWord), controlWordAt i n = some cw →
    (asserted cw .fi = true ↔ n = 4#3 ∧ ∃ p : Addr, i = .add p ∨ i = .sub p)

/-- R101 ("STA is the only instruction that writes RAM") and R53: a step of STA puts the old A in its cell and leaves the
other fifteen; every other step leaves all sixteen as they were. -/
def Obligations.OnlyStaWritesRam : Prop :=
  ∀ s t : State, s.ram.wf = true → step s = .next t →
    (∀ p : Addr, decode (s.memRead s.pc) = .sta p →
      t.memRead p = s.a ∧ ∀ x : Addr, x ≠ p → t.memRead x = s.memRead x) ∧
    ((∀ p : Addr, decode (s.memRead s.pc) ≠ .sta p) → ∀ x : Addr, t.memRead x = s.memRead x)

/-- R34 and R35 (decision D14): OUT and the trace change by OUT, which appends A, and by CLR, which appends 0x00, and by
nothing else. -/
def Obligations.OnlyOutAndClrReachTheDisplay : Prop :=
  ∀ s t : State, step s = .next t →
    if decode (s.memRead s.pc) = .out then t.out = s.a ∧ t.trace = s.trace ++ [s.a]
    else if decode (s.memRead s.pc) = .clr then t.out = 0x00#8 ∧ t.trace = s.trace ++ [0x00#8]
    else t.out = s.out ∧ t.trace = s.trace

/-- R212: HALT becomes 1 exactly when a word 0xF0 to 0xFF is fetched and executed. -/
def Obligations.OnlyHltHalts : Prop :=
  ∀ s t : State, step s = .next t → (t.halt = true ↔ 0xF0 ≤ (s.memRead s.pc).toNat)

/-- R37 and R38: after a step IR holds the word executed, and MAR the address of the last cell accessed: the operand's
address after LDA, ADD, SUB and STA, otherwise the address the instruction was fetched from. -/
def Obligations.IrAndMarAtTheBoundary : Prop :=
  ∀ s t : State, step s = .next t → t.ir = s.memRead s.pc ∧ t.mar =
    match decode (s.memRead s.pc) with
    | .lda p => p
    | .add p => p
    | .sub p => p
    | .sta p => p
    | _ => s.pc

/-- R64 (derived there): a store is seen by the very next fetch of that cell. After a STA whose successor is fetched from
the cell it wrote, that step runs the instruction A spells. -/
def Obligations.StoreIsSeenByTheNextFetch : Prop :=
  ∀ (s t : State) (p : Addr), s.ram.wf = true → step s = .next t → decode (s.memRead s.pc) = .sta p → t.pc = p →
    step t = exec (decode s.a) { t with ir := s.a, mar := p, pc := p + 1#4 }

/-- R24 and R202: B, IR and MAR cannot be observed. Two states that agree on everything else run alike for any number of
steps: the same stop, or next states that agree on everything else, the output trace among it. -/
def Obligations.ScratchRegistersAreUnobservable : Prop :=
  ∀ (s s' : State) (k : Nat), AgreeButScratch s s' → AlikeResults (runSteps k s) (runSteps k s')

/-! ### Arithmetic laws -/

/-- The table of flag outcomes R118 (derived there from R112 to R115). -/
def Obligations.FlagOutcomeTable : Prop :=
  ∀ row ∈ ([(false, 0x00#8, 0x00#8, 0x00#8, false, true), (false, 0x01#8, 0x01#8, 0x02#8, false, false),
    (false, 0xFF#8, 0x01#8, 0x00#8, true, true), (false, 0x80#8, 0x80#8, 0x00#8, true, true),
    (false, 0xFF#8, 0xFF#8, 0xFE#8, true, false), (false, 0xC8#8, 0x64#8, 0x2C#8, true, false),
    (false, 0x7F#8, 0x01#8, 0x80#8, false, false), (true, 0x00#8, 0x00#8, 0x00#8, true, true),
    (true, 0x05#8, 0x05#8, 0x00#8, true, true), (true, 0x05#8, 0x03#8, 0x02#8, true, false),
    (true, 0x05#8, 0x06#8, 0xFF#8, false, false), (true, 0x00#8, 0x01#8, 0xFF#8, false, false),
    (true, 0x00#8, 0xFF#8, 0x01#8, false, false), (true, 0xFF#8, 0x00#8, 0xFF#8, true, false),
    (true, 0x80#8, 0x01#8, 0x7F#8, true, false)] : List (Bool × Byte × Byte × Byte × Bool × Bool)),
    aluResult row.2.1 row.2.2.1 row.1 = row.2.2.2.1 ∧ aluCarry row.2.1 row.2.2.1 row.1 = row.2.2.2.2.1 ∧
    zeroFlag (aluResult row.2.1 row.2.2.1 row.1) = row.2.2.2.2.2

/-- R114 and R115: after SUB, JC jumps iff A >= M (unsigned), which rests on the meaning of CF (decision D6, log 8), and
JZ jumps iff A = M, which rests on the meaning of ZF (decision D7, log 9); both flags are those of the old A (decision D8,
log 10). -/
def Obligations.ConditionalJumpsAfterSubCompare : Prop :=
  ∀ (s : State) (x y : Addr), ∃ t : State, exec (.sub x) s = .next t ∧
    exec (.jc y) t = .next { t with pc := if (s.memRead x).toNat ≤ s.a.toNat then y else s.pc } ∧
    exec (.jz y) t = .next { t with pc := if s.a = s.memRead x then y else s.pc }

/-- R117: ADD computes A + M and SUB computes A - M modulo 256, so that each undoes the other on A. -/
def Obligations.AddAndSubUndoEachOther : Prop :=
  ∀ (s : State) (x : Addr),
    (∃ t u : State, exec (.add x) s = .next t ∧ exec (.sub x) t = .next u ∧ u.a = s.a) ∧
    (∃ t u : State, exec (.sub x) s = .next t ∧ exec (.add x) t = .next u ∧ u.a = s.a)

/-! ### The microcode -/

/-- R167: the microprogram of every opcode, step by step from t2, and that opcodes 1001 to 1100 have none. -/
def Obligations.MicroprogramTable : Prop :=
  ∀ p : Nibble,
    microprogram (decode (0b0000#4 ++ p)) = some [[.nxt]] ∧
    microprogram (decode (0b0001#4 ++ p)) = some [[.io, .mi], [.ro, .ai], [.nxt]] ∧
    microprogram (decode (0b0010#4 ++ p)) = some [[.io, .mi], [.ro, .bi], [.sumOut, .ai, .fi], [.nxt]] ∧
    microprogram (decode (0b0011#4 ++ p)) = some [[.io, .mi], [.ro, .bi], [.so, .sumOut, .ai, .fi], [.nxt]] ∧
    microprogram (decode (0b0100#4 ++ p)) = some [[.io, .mi], [.ao, .ri], [.nxt]] ∧
    microprogram (decode (0b0101#4 ++ p)) = some [[.io, .ai], [.nxt]] ∧
    microprogram (decode (0b0110#4 ++ p)) = some [[.io, .ci], [.nxt]] ∧
    microprogram (decode (0b0111#4 ++ p)) = some [[.jc], [.nxt]] ∧
    microprogram (decode (0b1000#4 ++ p)) = some [[.jz], [.nxt]] ∧
    microprogram (decode (0b1001#4 ++ p)) = none ∧ microprogram (decode (0b1010#4 ++ p)) = none ∧
    microprogram (decode (0b1011#4 ++ p)) = none ∧ microprogram (decode (0b1100#4 ++ p)) = none ∧
    microprogram (decode (0b1101#4 ++ p)) = some [[.oc], [.nxt]] ∧
    microprogram (decode (0b1110#4 ++ p)) = some [[.ao, .oi], [.nxt]] ∧
    microprogram (decode (0b1111#4 ++ p)) = some [[.hlt], [.nxt]]

/-- The control words of R168 (derived there from R140 and R167) and those of the fetch cycle, which the spec supplies
from general knowledge (R166, decision D4, log 14). -/
def Obligations.ControlWordsAreTheListedNumbers : Prop :=
  wordOfLines [.nxt] = 0x000001#24 ∧ wordOfLines [.io, .mi] = 0x440000#24 ∧ wordOfLines [.ro, .ai] = 0x120000#24 ∧
  wordOfLines [.ro, .bi] = 0x108000#24 ∧ wordOfLines [.sumOut, .ai, .fi] = 0x022800#24 ∧
  wordOfLines [.so, .sumOut, .ai, .fi] = 0x023800#24 ∧ wordOfLines [.ao, .ri] = 0x210000#24 ∧
  wordOfLines [.io, .ai] = 0x060000#24 ∧ wordOfLines [.io, .ci] = 0x040040#24 ∧ wordOfLines [.jc] = 0x000010#24 ∧
  wordOfLines [.jz] = 0x000008#24 ∧ wordOfLines [.oc] = 0x000200#24 ∧ wordOfLines [.ao, .oi] = 0x010400#24 ∧
  wordOfLines [.hlt] = 0x800000#24 ∧
  ∀ i : Instr, controlWordAt i 0#3 = some 0x400020#24 ∧ controlWordAt i 1#3 = some 0x180080#24

/-- R141, R142, R147, R149 and R154: the In lines MI, RI, AI, BI and OI load their register from the bus, RI at the
address MAR held before the micro-step, MI the low four bits only; and where the rules say which steps assert a line,
no other step asserts it. A load of OUT also appends the value to the trace (R8, R35: decision D14, log 13). The OI clause
is for words without OC: where both are asserted the model lets OC decide (log 12), and O60 states OC. The bus is that
of the used lines: BO has no effect (R161, decision D23, log 15). -/
def Obligations.InLinesLoadFromTheBus : Prop :=
  (∀ (cw : ControlWord) (s t : State), microStep cw s = .next t →
    (asserted cw .mi = true → ∃ v, busOf (usedLines cw) s = .value v ∧ t.mar = v.extractLsb' 0 4) ∧
    (asserted cw .ri = true → ∃ v, busOf (usedLines cw) s = .value v ∧ t.ram = s.ram.write s.mar.toNat v) ∧
    (asserted cw .ai = true → ∃ v, busOf (usedLines cw) s = .value v ∧ t.a = v) ∧
    (asserted cw .bi = true → ∃ v, busOf (usedLines cw) s = .value v ∧ t.b = v) ∧
    (asserted cw .oi = true → asserted cw .oc = false →
      ∃ v, busOf (usedLines cw) s = .value v ∧ t.out = v ∧ t.trace = s.trace ++ [v])) ∧
  ∀ (i : Instr) (n : StepCode) (cw : ControlWord), controlWordAt i n = some cw →
    (asserted cw .ri = true ↔ n = 3#3 ∧ ∃ p, i = .sta p) ∧
    (asserted cw .ai = true ↔ (n = 3#3 ∧ ∃ p, i = .lda p) ∨ (n = 4#3 ∧ ∃ p, i = .add p ∨ i = .sub p) ∨
      (n = 2#3 ∧ ∃ p, i = .ldi p)) ∧
    (asserted cw .bi = true ↔ n = 3#3 ∧ ∃ p, i = .add p ∨ i = .sub p) ∧
    (asserted cw .oi = true ↔ n = 2#3 ∧ i = .out)

/-- R143, R146, R148, R150, R151 and R159: whenever the bus carries a value, it is that of the one asserted Out line. The
upper four bits under IO are decision D5 (log 7), and that the sum is A + B with no carry in is decision D22 (log 11). The
BO clause is R150's `bus = B` as it stands, for the bus alone: no control word of this machine asserts BO, and the
micro-step gives it no effect (R161, decision D23, log 15: O50). -/
def Obligations.OutLinesDriveTheBus : Prop :=
  ∀ (cw : ControlWord) (s : State) (v : Byte), busOf cw s = .value v →
    (asserted cw .ro = true → v = s.memRead s.mar) ∧
    (asserted cw .io = true → v = 0b0000#4 ++ s.ir.extractLsb' 0 4) ∧
    (asserted cw .ao = true → v = s.a) ∧ (asserted cw .bo = true → v = s.b) ∧
    (asserted cw .sumOut = true → v.toNat =
      if asserted cw .so then (s.a.toNat + 256 - s.b.toNat) % 256 else (s.a.toNat + s.b.toNat) % 256) ∧
    (asserted cw .co = true → v = 0b0000#4 ++ s.pc)

/-- R160 (decision D20): the lines JC and JZ have the effect of `IO CI` when their flag is set, and of an empty control
word when it is clear. -/
def Obligations.JumpLinesActAsGatedLoad : Prop :=
  ∀ s : State,
    (s.cf = true → microStep (wordOfLines [.jc]) s = microStep (wordOfLines [.io, .ci]) s) ∧
    (s.cf = false → microStep (wordOfLines [.jc]) s = microStep 0#24 s) ∧
    (s.zf = true → microStep (wordOfLines [.jz]) s = microStep (wordOfLines [.io, .ci]) s) ∧
    (s.zf = false → microStep (wordOfLines [.jz]) s = microStep 0#24 s)

/-- R162: NXT returns T to t0 and moves no data; it is the last control word of every microprogram, asserted alone and
in no earlier step; and it costs no clock cycle: the documented count is 2 plus the steps before it. -/
def Obligations.NxtEndsEveryMicroprogram : Prop :=
  (∀ s : State, s.halt = false → microStep (wordOfLines [.nxt]) s = .next { s with t := 0#3 }) ∧
  ∀ (i : Instr) (rows : List (List ControlLine)), microprogram i = some rows →
    ∃ before : List (List ControlLine), rows = before ++ [[.nxt]] ∧ (∀ row ∈ before, ControlLine.nxt ∉ row) ∧
      clockCycles i = some (2 + before.length)

/-- R164 (derived there): in every control word of this machine the bus is defined when it is used and there is never a
conflict on it, so that a running machine's micro-step always has a next state. -/
def Obligations.BusIsDefinedWhenUsed : Prop :=
  ∀ (i : Instr) (n : StepCode) (cw : ControlWord) (s : State), controlWordAt i n = some cw → s.halt = false →
    busOf cw s ≠ .contention ∧ (readsBus cw = true → ∃ v, busOf cw s = .value v) ∧
    ∃ t : State, microStep cw s = .next t

/-- R161: BO, O2 and the bits 2 and 1 are 0 in every control word of this machine, and the model gives them no effect: in
any word whatever, they do not change what the micro-step answers (decision D23, log 15); and II, CE and CO are asserted
by no microprogram, only by the fetch (t0 and t1). -/
def Obligations.LinesNoMicroprogramAsserts : Prop :=
  (∀ (i : Instr) (n : StepCode) (cw : ControlWord), controlWordAt i n = some cw →
    cw.getLsbD 14 = false ∧ cw.getLsbD 8 = false ∧ cw.getLsbD 2 = false ∧ cw.getLsbD 1 = false ∧
    (2 ≤ n.toNat → cw.getLsbD 19 = false ∧ cw.getLsbD 7 = false ∧ cw.getLsbD 5 = false)) ∧
  ∀ (cw cw' : ControlWord) (s : State),
    (∀ k : Nat, k ≠ 14 → k ≠ 8 → k ≠ 2 → k ≠ 1 → cw.getLsbD k = cw'.getLsbD k) → microStep cw s = microStep cw' s

/-- R165: from a state of the micro-step level's invariant, which every launch has, the clock answers no refusal (neither
a step past its microprogram's end nor an undefined bus), keeps the invariant, and never reaches t6 or t7. Only refusals
are excluded, not faults: a reserved word in IR has no control word from t2 on (R76, R167), and the model's choice for it,
the fault of log 6 (decision D9), is not stated here. -/
def Obligations.EveryClockKeepsMicroInvariant : Prop :=
  (∀ (p : Config.Launch) (f : Addr → Byte), MicroInv (State.launch p f)) ∧
  ∀ s : State, MicroInv s → (∀ r : Refusal, clock s ≠ .refused r) ∧
    ∀ t : State, clock s = .next t → MicroInv t ∧ t.t.toNat ≤ 5

/-- R170 (derived there) for assigned opcodes with HALT = 0: from an instruction boundary, the fetch cycle and the
microprogram run to exactly the outcome of the instruction step, the same next state in every field. Beyond R170: that a
reserved opcode gives the same fault at both levels is the model's choice of log 6 (decision D9), that a halted state
gives fault halted at both is log 5, and T and `draws` at a halt are the one free value of log 1 at both. -/
def Obligations.MicrocodeAgreesWithTheStep : Prop :=
  ∀ s : State, s.t = 0#3 → microInstr s = step s

/-- R171 (derived there): the clock cycles of the micro-steps of an instruction are the documented ones. -/
def Obligations.MicrocodeTakesTheDocumentedCycles : Prop :=
  ∀ s : State, s.t = 0#3 → s.halt = false → (decode (s.memRead s.pc)).wellFormed = true →
    clockCycles (decode (s.memRead s.pc)) = some (microCycles s)

/-! ### The assembler notation -/

/-- R79 to R81 (the spec's own notation, decision D19): an item assembles iff its number is in range, an instruction's
byte decodes to the instruction it names, and a data byte is its number. -/
def Obligations.AssembledItemsDecodeBack : Prop :=
  (∀ i : AsmItem, (assembleItem i).isSome = asmItemOk i) ∧
  (∀ (n : Nat) (w : Byte),
    (assembleItem (.lda n) = some w → ∃ p : Addr, p.toNat = n ∧ decode w = .lda p) ∧
    (assembleItem (.add n) = some w → ∃ p : Addr, p.toNat = n ∧ decode w = .add p) ∧
    (assembleItem (.sub n) = some w → ∃ p : Addr, p.toNat = n ∧ decode w = .sub p) ∧
    (assembleItem (.sta n) = some w → ∃ p : Addr, p.toNat = n ∧ decode w = .sta p) ∧
    (assembleItem (.ldi n) = some w → ∃ p : Nibble, p.toNat = n ∧ decode w = .ldi p) ∧
    (assembleItem (.jmp n) = some w → ∃ p : Addr, p.toNat = n ∧ decode w = .jmp p) ∧
    (assembleItem (.jc n) = some w → ∃ p : Addr, p.toNat = n ∧ decode w = .jc p) ∧
    (assembleItem (.jz n) = some w → ∃ p : Addr, p.toNat = n ∧ decode w = .jz p) ∧
    (assembleItem (.byte n) = some w → w.toNat = n)) ∧
  assembleItem .nop = some 0x00#8 ∧ assembleItem .clr = some 0xD0#8 ∧ assembleItem .out = some 0xE0#8 ∧
  assembleItem .hlt = some 0xF0#8

/-- R79 (the spec's own notation, decision D19), for a program whose lines all carry their address: it assembles iff every
address is 0 to 15 and every number is in range; a cell named by exactly one line holds that item's byte; and a cell no
line names holds whatever INIT_RAM gives it. -/
def Obligations.AssemblerLeavesUnnamedCells : Prop :=
  (∀ (lines : List AsmLine) (ram : Addr → Byte), (∀ l ∈ lines, l.address.isSome = true) →
    ((assemble lines ram).isSome = true ↔
      ∀ l ∈ lines, (∃ n, l.address = some n ∧ n < 16) ∧ asmItemOk l.item = true)) ∧
  (∀ (before later : List AsmLine) (l : AsmLine) (ram image : Addr → Byte) (x : Addr) (v : Byte),
    assemble (before ++ l :: later) ram = some image →
    (∀ l' ∈ before ++ later, ∃ n, l'.address = some n ∧ n ≠ x.toNat) →
    l.address = some x.toNat → assembleItem l.item = some v → image x = v) ∧
  ∀ (lines : List AsmLine) (ram image : Addr → Byte) (x : Addr), assemble lines ram = some image →
    (∀ l ∈ lines, ∃ n, l.address = some n ∧ n ≠ x.toNat) → image x = ram x

/-! ### Runs -/

/-- R185 and R212: on a run that fetches no reserved opcode, every state reached is halted or has a next state, so that
the run ends by HLT or not at all. -/
def Obligations.SafeRunsStopOnlyByHalting : Prop :=
  ∀ s s' : State, SafeRun s → Reaches s s' → s'.halt = true ∨ ∃ t : State, step s' = .next t

/-- R210 and R212: the run from a state is one determined sequence, so that it ends in at most one state, and the run
from that final state ends in it alone. -/
def Obligations.RunsEndInAtMostOneState : Prop :=
  ∀ s t : State, EndsIn s t → (∀ t' : State, EndsIn s t' → t' = t) ∧ ∀ u : State, Reaches t u ↔ u = t

/-- R35: the output trace only grows, by at most one value a step; what was shown stays in it. -/
def Obligations.TraceOnlyGrowsAlongRuns : Prop :=
  ∀ (k : Nat) (s t : State), runSteps k s = .next t → ∃ shown : List Byte, t.trace = s.trace ++ shown ∧ shown.length ≤ k

/-- R208 (decision D21): the cycle count of a run is the sum over the instructions it executes, so that the counts of its
parts add up, and a run with a next state has a count, 2 to 5 cycles an instruction (R207). -/
def Obligations.RunCyclesAddUp : Prop :=
  ∀ (j k : Nat) (s t u : State), runSteps j s = .next t → runSteps k t = .next u →
    ∃ m n : Nat, runCycles j s = some m ∧ runCycles k t = some n ∧ runCycles (j + k) s = some (m + n) ∧
      2 * j ≤ m ∧ m ≤ 5 * j

/-! ### One micro-step -/

/-- R144, R145, R153, R155, R157, R158 and R163: the effects of HLT, II, FI, OC, CE and CI, each taken from the values
before the micro-step (decision D8, log 10), and the frame: a register none of whose lines is asserted keeps its value,
and T advances by one where neither NXT nor HLT is asserted. For a word that no microprogram holds, the model's own
choices: OC decides over OI and CE over CI (log 12, DEDUCED), and HLT over NXT, where R163 alone would give T = 0 (log
12). T after HLT is the free value of log 1; CF and ZF are decisions D6 and D7 (logs 8 and 9), the trace is D14 (log 13).
The bus is that of the used lines, BO not among them (decision D23, log 15). -/
def Obligations.MicroStepWritesOnlyWhatItsLinesSay : Prop :=
  ∀ (cw : ControlWord) (s t : State), microStep cw s = .next t →
    (asserted cw .hlt = true → t.halt = true ∧ (t.t = s.t + 1#3 ∨ t.t = s.t)) ∧
    (asserted cw .ii = true → ∃ v, busOf (usedLines cw) s = .value v ∧ t.ir = v) ∧
    (asserted cw .fi = true → t.cf = aluCarry s.a s.b (asserted cw .so) ∧
      t.zf = zeroFlag (aluResult s.a s.b (asserted cw .so))) ∧
    (asserted cw .oc = true → t.out = 0x00#8 ∧ t.trace = s.trace ++ [0x00#8]) ∧
    (asserted cw .jc = false → asserted cw .jz = false →
      (asserted cw .ce = true → t.pc = s.pc + 1#4) ∧
      (asserted cw .ce = false → asserted cw .ci = true → ∃ v, busOf (usedLines cw) s = .value v ∧ t.pc = v.extractLsb' 0 4) ∧
      (asserted cw .ce = false → asserted cw .ci = false → t.pc = s.pc)) ∧
    (asserted cw .ai = false → t.a = s.a) ∧ (asserted cw .bi = false → t.b = s.b) ∧
    (asserted cw .fi = false → t.cf = s.cf ∧ t.zf = s.zf) ∧ (asserted cw .ii = false → t.ir = s.ir) ∧
    (asserted cw .mi = false → t.mar = s.mar) ∧ (asserted cw .hlt = false → t.halt = false) ∧
    (asserted cw .ri = false → ∀ x : Addr, t.memRead x = s.memRead x) ∧
    (asserted cw .oi = false → asserted cw .oc = false → t.out = s.out ∧ t.trace = s.trace) ∧
    (asserted cw .nxt = false → asserted cw .hlt = false → t.t = s.t + 1#3)
end

