-- ==== Sys2Proof/Laws/Assembler.lean ====
section
/-! SUPPORT. What assembling one item and placing one line with an address can do, said once (rule R79 of
spec/30_encoding.md). -/

namespace Sys2Proof.Machine

/-- An item assembles to its byte iff its number is in range. -/
theorem assembleItem_eq_some {i : AsmItem} {v : Byte} :
    assembleItem i = some v ↔ asmItemOk i = true ∧ asmItemByte i = v := by
  unfold assembleItem
  split <;> simp_all

/-- No lines place nothing. -/
@[simp] theorem assembleFrom_nil (next : Nat) (ram : Addr → Byte) : assembleFrom next [] ram = some ram := rfl

/-- A line with an address: the address and the item are in range, and the rest is placed over the RAM with its byte. -/
theorem assembleFrom_cons_addressed {next n : Nat} {i : AsmItem} {ls : List AsmLine} {ram image : Addr → Byte} :
    assembleFrom next (⟨some n, i⟩ :: ls) ram = some image ↔
      n < 16 ∧ asmItemOk i = true ∧
        assembleFrom (n + 1) ls (fun x => if x = BitVec.ofNat 4 n then asmItemByte i else ram x) = some image := by
  by_cases hn : n < 16 <;> by_cases hi : asmItemOk i = true <;> simp [assembleFrom, assembleItem, hn, hi]

end Sys2Proof.Machine
end

