-- ==== Sys2Proof/Laws/Decode.lean ====
section
/-! SUPPORT. The two fields of an instruction word (rule R71 of spec/30_encoding.md). -/

namespace Sys2Proof

/-- The opcode field of a word built from two fields. -/
@[simp] theorem opcodeField_wordOfFields (op p : Nibble) : opcodeField (wordOfFields op p) = op := by
  revert op p
  decide

/-- The parameter field of a word built from two fields. -/
@[simp] theorem parameterField_wordOfFields (op p : Nibble) : parameterField (wordOfFields op p) = p := by
  revert op p
  decide

/-- Decoding a word built from two fields looks at the four bits of the opcode (R75). -/
theorem decode_wordOfFields (op p : Nibble) :
    decode (wordOfFields op p) =
      instrOfFields (op.getLsbD 3) (op.getLsbD 2) (op.getLsbD 1) (op.getLsbD 0) p := by
  have bit : ∀ k, k < 4 → (wordOfFields op p).getLsbD (4 + k) = op.getLsbD k := by
    intro k _
    exact (BitVec.getLsbD_append (x := op) (y := p)).trans (by simp)
  simp only [decode, parameterField_wordOfFields]
  rw [← bit 3 (by omega), ← bit 2 (by omega), ← bit 1 (by omega), ← bit 0 (by omega)]

end Sys2Proof
end

