-- ==== Sys2Proof/Laws/State.lean ====
section
/-! SUPPORT. What each named update of a state (Machine/Ops.lean) leaves in each field: one lemma per field per update.
-/

namespace Sys2Proof.Machine

@[simp] theorem State.setA_a (s : State) (v : Byte) : (s.setA v).a = v := rfl
@[simp] theorem State.setA_b (s : State) (v : Byte) : (s.setA v).b = s.b := rfl
@[simp] theorem State.setA_pc (s : State) (v : Byte) : (s.setA v).pc = s.pc := rfl
@[simp] theorem State.setA_cf (s : State) (v : Byte) : (s.setA v).cf = s.cf := rfl
@[simp] theorem State.setA_zf (s : State) (v : Byte) : (s.setA v).zf = s.zf := rfl
@[simp] theorem State.setA_ram (s : State) (v : Byte) : (s.setA v).ram = s.ram := rfl
@[simp] theorem State.setA_out (s : State) (v : Byte) : (s.setA v).out = s.out := rfl
@[simp] theorem State.setA_trace (s : State) (v : Byte) : (s.setA v).trace = s.trace := rfl
@[simp] theorem State.setA_halt (s : State) (v : Byte) : (s.setA v).halt = s.halt := rfl
@[simp] theorem State.setA_ir (s : State) (v : Byte) : (s.setA v).ir = s.ir := rfl
@[simp] theorem State.setA_mar (s : State) (v : Byte) : (s.setA v).mar = s.mar := rfl
@[simp] theorem State.setA_t (s : State) (v : Byte) : (s.setA v).t = s.t := rfl
@[simp] theorem State.setA_draws (s : State) (v : Byte) : (s.setA v).draws = s.draws := rfl

@[simp] theorem State.setB_a (s : State) (v : Byte) : (s.setB v).a = s.a := rfl
@[simp] theorem State.setB_b (s : State) (v : Byte) : (s.setB v).b = v := rfl
@[simp] theorem State.setB_pc (s : State) (v : Byte) : (s.setB v).pc = s.pc := rfl
@[simp] theorem State.setB_cf (s : State) (v : Byte) : (s.setB v).cf = s.cf := rfl
@[simp] theorem State.setB_zf (s : State) (v : Byte) : (s.setB v).zf = s.zf := rfl
@[simp] theorem State.setB_ram (s : State) (v : Byte) : (s.setB v).ram = s.ram := rfl
@[simp] theorem State.setB_out (s : State) (v : Byte) : (s.setB v).out = s.out := rfl
@[simp] theorem State.setB_trace (s : State) (v : Byte) : (s.setB v).trace = s.trace := rfl
@[simp] theorem State.setB_halt (s : State) (v : Byte) : (s.setB v).halt = s.halt := rfl
@[simp] theorem State.setB_ir (s : State) (v : Byte) : (s.setB v).ir = s.ir := rfl
@[simp] theorem State.setB_mar (s : State) (v : Byte) : (s.setB v).mar = s.mar := rfl
@[simp] theorem State.setB_t (s : State) (v : Byte) : (s.setB v).t = s.t := rfl
@[simp] theorem State.setB_draws (s : State) (v : Byte) : (s.setB v).draws = s.draws := rfl

@[simp] theorem State.setPc_a (s : State) (target : Addr) : (s.setPc target).a = s.a := rfl
@[simp] theorem State.setPc_b (s : State) (target : Addr) : (s.setPc target).b = s.b := rfl
@[simp] theorem State.setPc_pc (s : State) (target : Addr) : (s.setPc target).pc = target := rfl
@[simp] theorem State.setPc_cf (s : State) (target : Addr) : (s.setPc target).cf = s.cf := rfl
@[simp] theorem State.setPc_zf (s : State) (target : Addr) : (s.setPc target).zf = s.zf := rfl
@[simp] theorem State.setPc_ram (s : State) (target : Addr) : (s.setPc target).ram = s.ram := rfl
@[simp] theorem State.setPc_out (s : State) (target : Addr) : (s.setPc target).out = s.out := rfl
@[simp] theorem State.setPc_trace (s : State) (target : Addr) : (s.setPc target).trace = s.trace := rfl
@[simp] theorem State.setPc_halt (s : State) (target : Addr) : (s.setPc target).halt = s.halt := rfl
@[simp] theorem State.setPc_ir (s : State) (target : Addr) : (s.setPc target).ir = s.ir := rfl
@[simp] theorem State.setPc_mar (s : State) (target : Addr) : (s.setPc target).mar = s.mar := rfl
@[simp] theorem State.setPc_t (s : State) (target : Addr) : (s.setPc target).t = s.t := rfl
@[simp] theorem State.setPc_draws (s : State) (target : Addr) : (s.setPc target).draws = s.draws := rfl

@[simp] theorem State.setFlags_a (s : State) (c z : Bool) : (s.setFlags c z).a = s.a := rfl
@[simp] theorem State.setFlags_b (s : State) (c z : Bool) : (s.setFlags c z).b = s.b := rfl
@[simp] theorem State.setFlags_pc (s : State) (c z : Bool) : (s.setFlags c z).pc = s.pc := rfl
@[simp] theorem State.setFlags_cf (s : State) (c z : Bool) : (s.setFlags c z).cf = c := rfl
@[simp] theorem State.setFlags_zf (s : State) (c z : Bool) : (s.setFlags c z).zf = z := rfl
@[simp] theorem State.setFlags_ram (s : State) (c z : Bool) : (s.setFlags c z).ram = s.ram := rfl
@[simp] theorem State.setFlags_out (s : State) (c z : Bool) : (s.setFlags c z).out = s.out := rfl
@[simp] theorem State.setFlags_trace (s : State) (c z : Bool) : (s.setFlags c z).trace = s.trace := rfl
@[simp] theorem State.setFlags_halt (s : State) (c z : Bool) : (s.setFlags c z).halt = s.halt := rfl
@[simp] theorem State.setFlags_ir (s : State) (c z : Bool) : (s.setFlags c z).ir = s.ir := rfl
@[simp] theorem State.setFlags_mar (s : State) (c z : Bool) : (s.setFlags c z).mar = s.mar := rfl
@[simp] theorem State.setFlags_t (s : State) (c z : Bool) : (s.setFlags c z).t = s.t := rfl
@[simp] theorem State.setFlags_draws (s : State) (c z : Bool) : (s.setFlags c z).draws = s.draws := rfl

@[simp] theorem State.setMar_a (s : State) (addr : Addr) : (s.setMar addr).a = s.a := rfl
@[simp] theorem State.setMar_b (s : State) (addr : Addr) : (s.setMar addr).b = s.b := rfl
@[simp] theorem State.setMar_pc (s : State) (addr : Addr) : (s.setMar addr).pc = s.pc := rfl
@[simp] theorem State.setMar_cf (s : State) (addr : Addr) : (s.setMar addr).cf = s.cf := rfl
@[simp] theorem State.setMar_zf (s : State) (addr : Addr) : (s.setMar addr).zf = s.zf := rfl
@[simp] theorem State.setMar_ram (s : State) (addr : Addr) : (s.setMar addr).ram = s.ram := rfl
@[simp] theorem State.setMar_out (s : State) (addr : Addr) : (s.setMar addr).out = s.out := rfl
@[simp] theorem State.setMar_trace (s : State) (addr : Addr) : (s.setMar addr).trace = s.trace := rfl
@[simp] theorem State.setMar_halt (s : State) (addr : Addr) : (s.setMar addr).halt = s.halt := rfl
@[simp] theorem State.setMar_ir (s : State) (addr : Addr) : (s.setMar addr).ir = s.ir := rfl
@[simp] theorem State.setMar_mar (s : State) (addr : Addr) : (s.setMar addr).mar = addr := rfl
@[simp] theorem State.setMar_t (s : State) (addr : Addr) : (s.setMar addr).t = s.t := rfl
@[simp] theorem State.setMar_draws (s : State) (addr : Addr) : (s.setMar addr).draws = s.draws := rfl

@[simp] theorem State.setIr_a (s : State) (w : Byte) : (s.setIr w).a = s.a := rfl
@[simp] theorem State.setIr_b (s : State) (w : Byte) : (s.setIr w).b = s.b := rfl
@[simp] theorem State.setIr_pc (s : State) (w : Byte) : (s.setIr w).pc = s.pc := rfl
@[simp] theorem State.setIr_cf (s : State) (w : Byte) : (s.setIr w).cf = s.cf := rfl
@[simp] theorem State.setIr_zf (s : State) (w : Byte) : (s.setIr w).zf = s.zf := rfl
@[simp] theorem State.setIr_ram (s : State) (w : Byte) : (s.setIr w).ram = s.ram := rfl
@[simp] theorem State.setIr_out (s : State) (w : Byte) : (s.setIr w).out = s.out := rfl
@[simp] theorem State.setIr_trace (s : State) (w : Byte) : (s.setIr w).trace = s.trace := rfl
@[simp] theorem State.setIr_halt (s : State) (w : Byte) : (s.setIr w).halt = s.halt := rfl
@[simp] theorem State.setIr_ir (s : State) (w : Byte) : (s.setIr w).ir = w := rfl
@[simp] theorem State.setIr_mar (s : State) (w : Byte) : (s.setIr w).mar = s.mar := rfl
@[simp] theorem State.setIr_t (s : State) (w : Byte) : (s.setIr w).t = s.t := rfl
@[simp] theorem State.setIr_draws (s : State) (w : Byte) : (s.setIr w).draws = s.draws := rfl

@[simp] theorem State.setT_a (s : State) (n : StepCode) : (s.setT n).a = s.a := rfl
@[simp] theorem State.setT_b (s : State) (n : StepCode) : (s.setT n).b = s.b := rfl
@[simp] theorem State.setT_pc (s : State) (n : StepCode) : (s.setT n).pc = s.pc := rfl
@[simp] theorem State.setT_cf (s : State) (n : StepCode) : (s.setT n).cf = s.cf := rfl
@[simp] theorem State.setT_zf (s : State) (n : StepCode) : (s.setT n).zf = s.zf := rfl
@[simp] theorem State.setT_ram (s : State) (n : StepCode) : (s.setT n).ram = s.ram := rfl
@[simp] theorem State.setT_out (s : State) (n : StepCode) : (s.setT n).out = s.out := rfl
@[simp] theorem State.setT_trace (s : State) (n : StepCode) : (s.setT n).trace = s.trace := rfl
@[simp] theorem State.setT_halt (s : State) (n : StepCode) : (s.setT n).halt = s.halt := rfl
@[simp] theorem State.setT_ir (s : State) (n : StepCode) : (s.setT n).ir = s.ir := rfl
@[simp] theorem State.setT_mar (s : State) (n : StepCode) : (s.setT n).mar = s.mar := rfl
@[simp] theorem State.setT_t (s : State) (n : StepCode) : (s.setT n).t = n := rfl
@[simp] theorem State.setT_draws (s : State) (n : StepCode) : (s.setT n).draws = s.draws := rfl

@[simp] theorem State.showOut_a (s : State) (v : Byte) : (s.showOut v).a = s.a := rfl
@[simp] theorem State.showOut_b (s : State) (v : Byte) : (s.showOut v).b = s.b := rfl
@[simp] theorem State.showOut_pc (s : State) (v : Byte) : (s.showOut v).pc = s.pc := rfl
@[simp] theorem State.showOut_cf (s : State) (v : Byte) : (s.showOut v).cf = s.cf := rfl
@[simp] theorem State.showOut_zf (s : State) (v : Byte) : (s.showOut v).zf = s.zf := rfl
@[simp] theorem State.showOut_ram (s : State) (v : Byte) : (s.showOut v).ram = s.ram := rfl
@[simp] theorem State.showOut_out (s : State) (v : Byte) : (s.showOut v).out = v := rfl
@[simp] theorem State.showOut_trace (s : State) (v : Byte) : (s.showOut v).trace = s.trace ++ [v] := rfl
@[simp] theorem State.showOut_halt (s : State) (v : Byte) : (s.showOut v).halt = s.halt := rfl
@[simp] theorem State.showOut_ir (s : State) (v : Byte) : (s.showOut v).ir = s.ir := rfl
@[simp] theorem State.showOut_mar (s : State) (v : Byte) : (s.showOut v).mar = s.mar := rfl
@[simp] theorem State.showOut_t (s : State) (v : Byte) : (s.showOut v).t = s.t := rfl
@[simp] theorem State.showOut_draws (s : State) (v : Byte) : (s.showOut v).draws = s.draws := rfl

@[simp] theorem State.memWrite_a (s : State) (addr : Addr) (v : Byte) : (s.memWrite addr v).a = s.a := rfl
@[simp] theorem State.memWrite_b (s : State) (addr : Addr) (v : Byte) : (s.memWrite addr v).b = s.b := rfl
@[simp] theorem State.memWrite_pc (s : State) (addr : Addr) (v : Byte) : (s.memWrite addr v).pc = s.pc := rfl
@[simp] theorem State.memWrite_cf (s : State) (addr : Addr) (v : Byte) : (s.memWrite addr v).cf = s.cf := rfl
@[simp] theorem State.memWrite_zf (s : State) (addr : Addr) (v : Byte) : (s.memWrite addr v).zf = s.zf := rfl
@[simp] theorem State.memWrite_ram (s : State) (addr : Addr) (v : Byte) : (s.memWrite addr v).ram = s.ram.write addr.toNat v := rfl
@[simp] theorem State.memWrite_out (s : State) (addr : Addr) (v : Byte) : (s.memWrite addr v).out = s.out := rfl
@[simp] theorem State.memWrite_trace (s : State) (addr : Addr) (v : Byte) : (s.memWrite addr v).trace = s.trace := rfl
@[simp] theorem State.memWrite_halt (s : State) (addr : Addr) (v : Byte) : (s.memWrite addr v).halt = s.halt := rfl
@[simp] theorem State.memWrite_ir (s : State) (addr : Addr) (v : Byte) : (s.memWrite addr v).ir = s.ir := rfl
@[simp] theorem State.memWrite_mar (s : State) (addr : Addr) (v : Byte) : (s.memWrite addr v).mar = s.mar := rfl
@[simp] theorem State.memWrite_t (s : State) (addr : Addr) (v : Byte) : (s.memWrite addr v).t = s.t := rfl
@[simp] theorem State.memWrite_draws (s : State) (addr : Addr) (v : Byte) : (s.memWrite addr v).draws = s.draws := rfl

@[simp] theorem State.stopClock_a (s : State) (n : StepCode) : (s.stopClock n).a = s.a := rfl
@[simp] theorem State.stopClock_b (s : State) (n : StepCode) : (s.stopClock n).b = s.b := rfl
@[simp] theorem State.stopClock_pc (s : State) (n : StepCode) : (s.stopClock n).pc = s.pc := rfl
@[simp] theorem State.stopClock_cf (s : State) (n : StepCode) : (s.stopClock n).cf = s.cf := rfl
@[simp] theorem State.stopClock_zf (s : State) (n : StepCode) : (s.stopClock n).zf = s.zf := rfl
@[simp] theorem State.stopClock_ram (s : State) (n : StepCode) : (s.stopClock n).ram = s.ram := rfl
@[simp] theorem State.stopClock_out (s : State) (n : StepCode) : (s.stopClock n).out = s.out := rfl
@[simp] theorem State.stopClock_trace (s : State) (n : StepCode) : (s.stopClock n).trace = s.trace := rfl
@[simp] theorem State.stopClock_halt (s : State) (n : StepCode) : (s.stopClock n).halt = true := rfl
@[simp] theorem State.stopClock_ir (s : State) (n : StepCode) : (s.stopClock n).ir = s.ir := rfl
@[simp] theorem State.stopClock_mar (s : State) (n : StepCode) : (s.stopClock n).mar = s.mar := rfl
@[simp] theorem State.stopClock_t (s : State) (n : StepCode) : (s.stopClock n).t = s.haltedT n := rfl
@[simp] theorem State.stopClock_draws (s : State) (n : StepCode) : (s.stopClock n).draws = s.draws + 1 := rfl

@[simp] theorem State.fetched_a (s : State) : s.fetched.a = s.a := rfl
@[simp] theorem State.fetched_b (s : State) : s.fetched.b = s.b := rfl
@[simp] theorem State.fetched_pc (s : State) : s.fetched.pc = s.pc + 1#4 := rfl
@[simp] theorem State.fetched_cf (s : State) : s.fetched.cf = s.cf := rfl
@[simp] theorem State.fetched_zf (s : State) : s.fetched.zf = s.zf := rfl
@[simp] theorem State.fetched_ram (s : State) : s.fetched.ram = s.ram := rfl
@[simp] theorem State.fetched_out (s : State) : s.fetched.out = s.out := rfl
@[simp] theorem State.fetched_trace (s : State) : s.fetched.trace = s.trace := rfl
@[simp] theorem State.fetched_halt (s : State) : s.fetched.halt = s.halt := rfl
@[simp] theorem State.fetched_ir (s : State) : s.fetched.ir = s.fetchWord := rfl
@[simp] theorem State.fetched_mar (s : State) : s.fetched.mar = s.pc := rfl
@[simp] theorem State.fetched_t (s : State) : s.fetched.t = s.t := rfl
@[simp] theorem State.fetched_draws (s : State) : s.fetched.draws = s.draws := rfl

end Sys2Proof.Machine
end

