-- ==== Sys2Proof/Laws/Flags.lean ====
section
/-! SUPPORT. What the ALU computes (rules R112 to R115 of spec/42_arithmetic.md), in terms of natural numbers, and what
the shared execute phase of ADD and SUB writes. -/

namespace Sys2Proof.Machine

/-- The sum of an addition. -/
theorem aluSum_add (a b : Byte) : aluSum a b false = a.toNat + b.toNat := by
  simp [aluSum, aluOperand, carryIn]

/-- The sum of a subtraction, `A - B + 256` (R114). -/
theorem aluSum_sub (a b : Byte) : aluSum a b true = a.toNat + 256 - b.toNat := by
  have hb := b.isLt
  simp only [aluSum, aluOperand, carryIn, if_true, BitVec.toNat_not]
  omega

/-- The sum has nine bits (R112: 0 <= s <= 511). -/
theorem aluSum_lt (a b : Byte) (sub : Bool) : aluSum a b sub < 512 := by
  have ha := a.isLt
  have hb := b.isLt
  cases sub
  · rw [aluSum_add]; omega
  · rw [aluSum_sub]; omega

/-- The result is the sum modulo 256 (R112). -/
theorem aluResult_toNat (a b : Byte) (sub : Bool) : (aluResult a b sub).toNat = aluSum a b sub % 256 := by
  simp [aluResult]

/-- The carry is bit 8 of the sum (R112). -/
theorem aluCarry_iff (a b : Byte) (sub : Bool) : aluCarry a b sub = true ↔ 256 ≤ aluSum a b sub := by
  have := aluSum_lt a b sub
  simp only [aluCarry, decide_eq_true_eq]
  omega

/-- ZF is 1 iff the result is 0x00 (R115). -/
theorem zeroFlag_iff (r : Byte) : zeroFlag r = true ↔ r = 0x00#8 := by simp [zeroFlag]

/-- Everything the execute phase of ADD and SUB writes: A, B, CF, ZF, from one ALU output (R116). -/
theorem arithmetic_eq (sub : Bool) (v : Byte) (s : State) :
    arithmetic sub v s =
      { s with a := aluResult s.a v sub, b := v, cf := aluCarry s.a v sub, zf := zeroFlag (aluResult s.a v sub) } :=
  rfl

end Sys2Proof.Machine
end

