-- ==== Sys2Proof/Laws/Exec.lean ====
section
/-! SUPPORT. What the shared operations and the step can do, said once. -/

namespace Sys2Proof.Machine

/-- A 4-bit counter that advanced and is stepped back is where it was (R27). -/
@[simp] theorem State.fetchedFrom_fetched (s : State) : s.fetched.fetchedFrom = s.pc := by
  simp [State.fetchedFrom]

/-- The fetch changes no RAM cell (R52). -/
@[simp] theorem State.memRead_fetched (s : State) (x : Addr) : s.fetched.memRead x = s.memRead x := rfl

/-- Selecting the operand's cell reads nothing and writes only MAR. -/
theorem selectOperand_eq (x : Addr) (s : State) : selectOperand x s = { s with mar := x } := rfl

/-- A store writes one cell and leaves its address in MAR. -/
theorem storeOperand_eq (x : Addr) (v : Byte) (s : State) :
    storeOperand x v s = { s with mar := x, ram := s.ram.write x.toNat v } := rfl

/-- A conditional jump changes at most pc (R121, R122). -/
theorem jumpIf_eq (flag : Bool) (x : Addr) (s : State) :
    jumpIf flag x s = { s with pc := if flag then x else s.pc } := by
  cases flag <;> rfl

/-- IllegalOpcode has no next state and records the word and the address (R185). -/
theorem raiseIllegalOpcode_eq (ir : Byte) (s : State) :
    raiseIllegalOpcode ir s = .fault (.illegalOpcode ir (s.pc - 1#4)) := rfl

/-- T of a halted machine is one of two values (R169). -/
theorem State.haltedT_cases (s : State) (n : StepCode) : s.haltedT n = n + 1 ∨ s.haltedT n = n := by
  unfold State.haltedT
  split <;> simp

/-- A step that answers a next state ran the decoded instruction from a running machine. -/
theorem step_next {s s' : State} (h : step s = .next s') :
    s.halt = false ∧ exec (decode s.fetchWord) s.fetched = .next s' := by
  unfold step at h
  split at h
  · cases h
  · next hh => exact ⟨by simpa using hh, h⟩

/-- The step of a running machine. -/
theorem step_running {s : State} (h : s.halt = false) : step s = exec (decode s.fetchWord) s.fetched := by
  simp [step, h]

/-- The step of a halted machine. -/
theorem step_halted {s : State} (h : s.halt = true) : step s = .fault .halted := by
  simp [step, h]

end Sys2Proof.Machine
end

