-- ==== Sys2Proof/Laws/Memory.lean ====
section
/-! SUPPORT. The laws of the RAM list: a read after a write (rules R52 and R53 of spec/20_memory.md), and that every
memory operation keeps the canonical form. -/

namespace Sys2Proof.Machine

/-- The canonical form of a listed cell and the cells after it. -/
theorem Memory.wfFrom_cons {lo k : Nat} {w : Byte} {m : Memory} :
    Memory.wfFrom lo ((k, w) :: m) = true ↔
      lo ≤ k ∧ k < 16 ∧ w ≠ Config.ramUnlisted ∧ Memory.wfFrom (k + 1) m = true := by
  simp only [Memory.wfFrom, Bool.and_eq_true, decide_eq_true_eq, and_assoc]
  exact Iff.rfl

/-- An address below every listed one is unlisted. -/
theorem Memory.read_of_wfFrom_lt {lo x : Nat} {m : Memory} (h : Memory.wfFrom lo m = true) (hx : x < lo) :
    m.read x = Config.ramUnlisted := by
  induction m generalizing lo with
  | nil => rfl
  | cons c m ih =>
    obtain ⟨k, w⟩ := c
    simp only [Memory.wfFrom, Bool.and_eq_true, decide_eq_true_eq] at h
    have hk : k ≠ x := by omega
    simpa [Memory.read, hk] using ih h.2 (by omega)

/-- The byte written is the byte read back, on a canonical memory. -/
theorem Memory.read_write_same {lo : Nat} {m : Memory} (h : Memory.wfFrom lo m = true) (x : Nat) (v : Byte) :
    (m.write x v).read x = v := by
  induction m generalizing lo with
  | nil => by_cases hv : v = Config.ramUnlisted <;> simp [Memory.write, Memory.read, hv]
  | cons c m ih =>
    obtain ⟨k, w⟩ := c
    simp only [Memory.wfFrom, Bool.and_eq_true, decide_eq_true_eq] at h
    obtain ⟨_, hm⟩ := h
    rcases Nat.lt_trichotomy x k with hlt | rfl | hgt
    · have hk : k ≠ x := by omega
      by_cases hv : v = Config.ramUnlisted
      · simp [Memory.write, Memory.read, hlt, hv, hk, Memory.read_of_wfFrom_lt hm (by omega : x < k + 1)]
      · simp [Memory.write, Memory.read, hlt, hv]
    · by_cases hv : v = Config.ramUnlisted
      · simp [Memory.write, hv, Memory.read_of_wfFrom_lt hm (Nat.lt_succ_self x)]
      · simp [Memory.write, Memory.read, hv]
    · have hlt : ¬ x < k := by omega
      have hk : x ≠ k := by omega
      simpa [Memory.write, Memory.read, hlt, hk, Ne.symm hk] using ih hm

/-- A write leaves every other address as it was, on any memory. -/
theorem Memory.read_write_ne (m : Memory) {x y : Nat} (v : Byte) (hxy : y ≠ x) :
    (m.write x v).read y = m.read y := by
  induction m with
  | nil => by_cases hv : v = Config.ramUnlisted <;> simp [Memory.write, Memory.read, hv, Ne.symm hxy]
  | cons c m ih =>
    obtain ⟨k, w⟩ := c
    simp only [Memory.write]
    split
    · split <;> simp [Memory.read, Ne.symm hxy]
    · split
      · next hk => subst hk; split <;> simp [Memory.read, Ne.symm hxy]
      · simp [Memory.read, ih]

/-- A memory canonical from `lo` on is canonical from every lower address on. -/
theorem Memory.wfFrom_mono {lo lo' : Nat} {m : Memory} (h : Memory.wfFrom lo m = true) (hlo : lo' ≤ lo) :
    Memory.wfFrom lo' m = true := by
  cases m with
  | nil => rfl
  | cons c m =>
    obtain ⟨k, w⟩ := c
    simp only [Memory.wfFrom, Bool.and_eq_true, decide_eq_true_eq] at h ⊢
    exact ⟨⟨⟨by omega, h.1.1.2⟩, h.1.2⟩, h.2⟩

/-- A write within the sixteen cells keeps the canonical form from `lo` on. -/
theorem Memory.wfFrom_write {lo x : Nat} {m : Memory} (h : Memory.wfFrom lo m = true) (hlo : lo ≤ x)
    (hx : x < Config.ramCells) (v : Byte) : Memory.wfFrom lo (m.write x v) = true := by
  induction m generalizing lo with
  | nil => by_cases hv : v = Config.ramUnlisted <;> simp [Memory.write, Memory.wfFrom, hv, hlo, hx]
  | cons c m ih =>
    obtain ⟨k, w⟩ := c
    simp only [Memory.wfFrom, Bool.and_eq_true, decide_eq_true_eq] at h
    obtain ⟨⟨⟨hk, hk16⟩, hw⟩, hm⟩ := h
    simp only [Memory.write]
    split
    · next hlt =>
      split
      · simp [Memory.wfFrom, hk, hk16, hw, hm]
      · next hv => simp [Memory.wfFrom, hlo, hx, hv, hlt, hk16, hw, hm]
    · split
      · next hxk =>
        subst hxk
        split
        · exact Memory.wfFrom_mono hm (by omega)
        · next hv => simp [Memory.wfFrom, hlo, hx, hv, hm]
      · next hlt hne => simp [Memory.wfFrom, hk, hk16, hw, ih hm (by omega)]

/-- A 4-bit address names one of the sixteen cells (R54). -/
theorem addr_lt_ramCells (x : Addr) : x.toNat < Config.ramCells := x.isLt

/-- The empty memory is canonical. -/
@[simp] theorem Memory.wf_nil : Memory.wf [] = true := rfl

/-- A write to a 4-bit address keeps the canonical form. -/
theorem Memory.wf_write {m : Memory} (h : m.wf = true) (x : Addr) (v : Byte) : (m.write x.toNat v).wf = true :=
  Memory.wfFrom_write h (Nat.zero_le _) (addr_lt_ramCells x) v

/-- `memWrite` keeps the canonical form. -/
theorem State.memWrite_wf {s : State} (h : s.ram.wf = true) (x : Addr) (v : Byte) : (s.memWrite x v).ram.wf = true :=
  Memory.wf_write h x v

/-- The cell written reads as the byte written (R53). -/
theorem State.memRead_memWrite_same {s : State} (h : s.ram.wf = true) (x : Addr) (v : Byte) :
    (s.memWrite x v).memRead x = v :=
  Memory.read_write_same h x.toNat v

/-- The other fifteen cells are unchanged (R53). -/
theorem State.memRead_memWrite_ne (s : State) {x y : Addr} (v : Byte) (hxy : y ≠ x) :
    (s.memWrite x v).memRead y = s.memRead y :=
  Memory.read_write_ne s.ram v fun h => hxy (BitVec.eq_of_toNat_eq h)

/-- Cells given in order are canonical, and each address among them reads as given. -/
theorem Memory.cellsFrom_spec (f : Addr → Byte) (n lo : Nat) (hn : lo + n ≤ Config.ramCells) :
    Memory.wfFrom lo (Memory.cellsFrom f n lo) = true ∧
      ∀ x : Addr, lo ≤ x.toNat → x.toNat < lo + n → (Memory.cellsFrom f n lo).read x.toNat = f x := by
  induction n generalizing lo with
  | zero => exact ⟨rfl, fun x h h' => by omega⟩
  | succ n ih =>
    obtain ⟨hwf, hread⟩ := ih (lo + 1) (by omega)
    have here : ∀ x : Addr, x.toNat = lo → f (BitVec.ofNat 4 lo) = f x := fun x hx => by subst hx; simp
    by_cases hd : f (BitVec.ofNat 4 lo) = Config.ramUnlisted
    · refine ⟨by simpa [Memory.cellsFrom, hd] using Memory.wfFrom_mono hwf (Nat.le_succ lo), fun x h h' => ?_⟩
      rcases Nat.lt_or_eq_of_le h with hlt | heq
      · simpa [Memory.cellsFrom, hd] using hread x hlt (by omega)
      · rw [← here x heq.symm, hd, Memory.cellsFrom, if_pos hd]
        exact Memory.read_of_wfFrom_lt hwf (by omega)
    · refine ⟨?_, fun x h h' => ?_⟩
      · have : lo < Config.ramCells := by omega
        simp [Memory.cellsFrom, Memory.wfFrom, hd, hwf, this]
      · rcases Nat.lt_or_eq_of_le h with hlt | heq
        · simpa [Memory.cellsFrom, Memory.read, hd, Nat.ne_of_lt hlt] using hread x hlt (by omega)
        · rw [← here x heq.symm, ← heq, Memory.cellsFrom, if_neg hd]
          simp [Memory.read]

/-- The canonical memory of sixteen given cells (R203): it is canonical, and each cell reads as given. -/
theorem Memory.ofCells_spec (f : Addr → Byte) :
    (Memory.ofCells f).wf = true ∧ ∀ x : Addr, (Memory.ofCells f).read x.toNat = f x := by
  obtain ⟨hwf, hread⟩ := Memory.cellsFrom_spec f Config.ramCells 0 (by omega)
  exact ⟨hwf, fun x => hread x (Nat.zero_le _) (by simpa using addr_lt_ramCells x)⟩

end Sys2Proof.Machine
end

