-- ==== Sys2Proof/Laws/Launch.lean ====
section
/-! SUPPORT. What the launch state and the reset event leave in each field (rules R201 to R204 of
spec/70_reset_and_hazards.md). -/

namespace Sys2Proof.Machine

@[simp] theorem State.launch_a (p : Config.Launch) (f : Addr → Byte) : (State.launch p f).a = p.initA := rfl
@[simp] theorem State.launch_b (p : Config.Launch) (f : Addr → Byte) : (State.launch p f).b = p.initB := rfl
@[simp] theorem State.launch_pc (p : Config.Launch) (f : Addr → Byte) : (State.launch p f).pc = Config.resetPc := rfl
@[simp] theorem State.launch_cf (p : Config.Launch) (f : Addr → Byte) : (State.launch p f).cf = p.initCf := rfl
@[simp] theorem State.launch_zf (p : Config.Launch) (f : Addr → Byte) : (State.launch p f).zf = p.initZf := rfl
@[simp] theorem State.launch_ram (p : Config.Launch) (f : Addr → Byte) : (State.launch p f).ram = Memory.ofCells f := rfl
@[simp] theorem State.launch_out (p : Config.Launch) (f : Addr → Byte) : (State.launch p f).out = p.initOut := rfl
@[simp] theorem State.launch_trace (p : Config.Launch) (f : Addr → Byte) : (State.launch p f).trace = [] := rfl
@[simp] theorem State.launch_halt (p : Config.Launch) (f : Addr → Byte) : (State.launch p f).halt = false := rfl
@[simp] theorem State.launch_ir (p : Config.Launch) (f : Addr → Byte) : (State.launch p f).ir = p.initIr := rfl
@[simp] theorem State.launch_mar (p : Config.Launch) (f : Addr → Byte) : (State.launch p f).mar = p.initMar := rfl
@[simp] theorem State.launch_t (p : Config.Launch) (f : Addr → Byte) : (State.launch p f).t = 0#3 := rfl
@[simp] theorem State.launch_draws (p : Config.Launch) (f : Addr → Byte) : (State.launch p f).draws = 0 := rfl

@[simp] theorem pressReset_a (p : Config.Launch) (s : State) : (pressReset p s).a = p.initA := rfl
@[simp] theorem pressReset_b (p : Config.Launch) (s : State) : (pressReset p s).b = p.initB := rfl
@[simp] theorem pressReset_pc (p : Config.Launch) (s : State) : (pressReset p s).pc = Config.resetPc := rfl
@[simp] theorem pressReset_cf (p : Config.Launch) (s : State) : (pressReset p s).cf = p.initCf := rfl
@[simp] theorem pressReset_zf (p : Config.Launch) (s : State) : (pressReset p s).zf = p.initZf := rfl
@[simp] theorem pressReset_ram (p : Config.Launch) (s : State) : (pressReset p s).ram = s.ram := rfl
@[simp] theorem pressReset_out (p : Config.Launch) (s : State) : (pressReset p s).out = p.initOut := rfl
@[simp] theorem pressReset_trace (p : Config.Launch) (s : State) : (pressReset p s).trace = [] := rfl
@[simp] theorem pressReset_halt (p : Config.Launch) (s : State) : (pressReset p s).halt = false := rfl
@[simp] theorem pressReset_ir (p : Config.Launch) (s : State) : (pressReset p s).ir = p.initIr := rfl
@[simp] theorem pressReset_mar (p : Config.Launch) (s : State) : (pressReset p s).mar = p.initMar := rfl
@[simp] theorem pressReset_t (p : Config.Launch) (s : State) : (pressReset p s).t = 0#3 := rfl
@[simp] theorem pressReset_draws (p : Config.Launch) (s : State) : (pressReset p s).draws = s.draws := rfl

/-- The RAM of a launch is canonical. -/
theorem State.launch_wf (p : Config.Launch) (f : Addr → Byte) : (State.launch p f).ram.wf = true := by
  rw [State.launch_ram]
  exact (Memory.ofCells_spec f).1

end Sys2Proof.Machine
end

