-- ==== Sys2Proof/Laws/Microcode.lean ====
section
/-! SUPPORT. What a micro-step can do, said once (rules R163 and R165 of spec/45_microcode.md). -/

namespace Sys2Proof.Machine

/-- Every named line but BO and O2 is a used one. -/
theorem asserted_usedLines (cw : ControlWord) {l : ControlLine} (hb : l ≠ .bo) (ho : l ≠ .o2) :
    asserted (usedLines cw) l = asserted cw l := by
  cases l <;> simp [asserted, usedLines, wordOfLines, lineBit] at hb ho ⊢

/-- BO is no used line. -/
@[simp] theorem asserted_usedLines_bo (cw : ControlWord) : asserted (usedLines cw) .bo = false := by
  simp [asserted, usedLines, wordOfLines, lineBit]

/-- Two words with the same bits but for BO, O2 and the bits 2 and 1 have the same used lines. -/
theorem usedLines_congr {cw cw' : ControlWord}
    (h : ∀ k : Nat, k ≠ 14 → k ≠ 8 → k ≠ 2 → k ≠ 1 → cw.getLsbD k = cw'.getLsbD k) : usedLines cw = usedLines cw' := by
  have mask : ∀ k : Nat, k = 14 ∨ k = 8 ∨ k = 2 ∨ k = 1 → (wordOfLines [.bo, .o2] ||| 0b110#24).getLsbD k = true := by
    rintro k (rfl | rfl | rfl | rfl) <;> rfl
  refine BitVec.eq_of_getLsbD_eq fun k hk => ?_
  by_cases hm : k = 14 ∨ k = 8 ∨ k = 2 ∨ k = 1
  · simp only [usedLines, BitVec.getLsbD_and, BitVec.getLsbD_not, mask k hm, Bool.not_true, Bool.and_false]
  · simp only [not_or] at hm
    simp only [usedLines, BitVec.getLsbD_and, h k hm.1 hm.2.1 hm.2.2.1 hm.2.2.2]

/-- A word that asserts neither BO nor O2 has only used lines. -/
theorem usedLines_wordOfLines {ls : List ControlLine} (hb : .bo ∉ ls) (ho : .o2 ∉ ls) :
    usedLines (wordOfLines ls) = wordOfLines ls := by
  induction ls with
  | nil => rfl
  | cons l ls ih =>
    simp only [List.mem_cons, not_or] at hb ho
    have hl : usedLines (BitVec.ofNat 24 (2 ^ lineBit l)) = BitVec.ofNat 24 (2 ^ lineBit l) := by
      cases l <;> first | rfl | exact absurd rfl hb.1 | exact absurd rfl ho.1
    show (wordOfLines ls ||| BitVec.ofNat 24 (2 ^ lineBit l)) &&& _ = wordOfLines ls ||| _
    rw [BitVec.and_or_distrib_right]
    exact congrArg₂ (· ||| ·) (ih hb.2 ho.2) hl

/-- A control word that reads no bus loads the same whatever the bus carries. -/
theorem latch_of_not_readsBus {cw : ControlWord} (h : readsBus cw = false) (v w : Byte) (s : State) :
    latch cw v s = latch cw w s := by
  simp only [readsBus, Bool.or_eq_false_iff] at h
  obtain ⟨⟨⟨⟨⟨⟨hmi, hri⟩, hii⟩, hai⟩, hbi⟩, hoi⟩, hci⟩ := h
  simp [latch, latchPc, hmi, hri, hii, hai, hbi, hoi, hci]

/-- A micro-step with a next state is the latch of some bus value, on a running machine; where a line reads the bus,
it is the value the bus carries under the used lines. -/
theorem microStep_next {cw : ControlWord} {s s' : State} (h : microStep cw s = .next s') :
    s.halt = false ∧ ∃ v, s' = latch cw v s ∧ (readsBus cw = true → busOf (usedLines cw) s = .value v) := by
  unfold microStep at h
  split at h
  · cases h
  · next hh =>
    refine ⟨by simpa using hh, ?_⟩
    split at h
    · cases h
    · next v hv => exact ⟨v, by simpa using h.symm, fun _ => hv⟩
    · split at h
      · cases h
      · next hr => exact ⟨_, by simpa using h.symm, fun hr' => absurd hr' hr⟩

/-- A clock with a next state is the micro-step of the control word that IR and T select. -/
theorem clock_next {s s' : State} (h : clock s = .next s') :
    s.halt = false ∧ ∃ cw, controlWordAt (decode s.ir) s.t = some cw ∧ microStep cw s = .next s' := by
  unfold clock at h
  split at h
  · cases h
  · next hh =>
    refine ⟨by simpa using hh, ?_⟩
    split at h
    · next cw hcw => exact ⟨cw, hcw, h⟩
    · split at h <;> cases h

end Sys2Proof.Machine
end

