-- ==== Sys2Proof/Laws/PerInstr.lean ====
section
/-! SUPPORT. Per-instruction families. `EncodesToItsRow`: of the sixteen match and mask rows of rule R74 of
spec/30_encoding.md, the word of an instruction is covered by exactly the row with its mnemonic. -/

namespace Sys2Proof.Laws.EncodesToItsRow

/-- The rows that cover the encoding of `i` are the one row of its mnemonic. -/
def Statement (i : Instr) : Prop :=
  (encodingTable.filter fun r => r.covers (encode i)).map EncodingRow.mnemonic = [i.mnemonic]

theorem nop : Statement .nop := by unfold Statement; decide

theorem clr : Statement .clr := by unfold Statement; decide

theorem out : Statement .out := by unfold Statement; decide

theorem hlt : Statement .hlt := by unfold Statement; decide

theorem lda (p : Nibble) : Statement (.lda p) := by revert p; unfold Statement; decide

theorem add (p : Nibble) : Statement (.add p) := by revert p; unfold Statement; decide

theorem sub (p : Nibble) : Statement (.sub p) := by revert p; unfold Statement; decide

theorem sta (p : Nibble) : Statement (.sta p) := by revert p; unfold Statement; decide

theorem ldi (p : Nibble) : Statement (.ldi p) := by revert p; unfold Statement; decide

theorem jmp (p : Nibble) : Statement (.jmp p) := by revert p; unfold Statement; decide

theorem jc (p : Nibble) : Statement (.jc p) := by revert p; unfold Statement; decide

theorem jz (p : Nibble) : Statement (.jz p) := by revert p; unfold Statement; decide

theorem reserved1001 (p : Nibble) : Statement (.reserved1001 p) := by revert p; unfold Statement; decide

theorem reserved1010 (p : Nibble) : Statement (.reserved1010 p) := by revert p; unfold Statement; decide

theorem reserved1011 (p : Nibble) : Statement (.reserved1011 p) := by revert p; unfold Statement; decide

theorem reserved1100 (p : Nibble) : Statement (.reserved1100 p) := by revert p; unfold Statement; decide

end Sys2Proof.Laws.EncodesToItsRow
end

