-- ==== Sys2Proof/Tests/Slice0.lean ====
section
/-! SUPPORT. The model's own tests: words written out from the encodings of spec/30_encoding.md, one step per test with
expected values from spec/95_test_vectors.md (its section is named at each test), ill-formed terms that the checks refuse,
and, for every statement with hypotheses, a state that meets them. -/

namespace Sys2Proof.Tests

open Sys2Proof.Machine

/-! ### Helpers -/

/-- The reset state with pc, A and the RAM cells that a test names. -/
def start (pc : Addr) (a : Byte) (cells : Memory) : State := { State.reset with pc := pc, a := a, ram := cells }

/-- The same with the two flags. -/
def flagged (c z : Bool) (s : State) : State := { s with cf := c, zf := z }

/-- The next state of a result, if it has one. -/
def nextOf : Result → Option State
  | .next s => some s
  | .fault _ => none
  | .refused _ => none

/-- The fault of a result, if it is one. -/
def faultOf : Result → Option Fault
  | .next _ => none
  | .fault f => some f
  | .refused _ => none

/-- What one step leaves in a part of the state. -/
def after {α : Type} (s : State) (f : State → α) : Option α := (nextOf (step s)).map f

/-- A result with a next state, as the statements' hypotheses say it. -/
theorem exists_next {r : Result} (h : (nextOf r).isSome = true) : ∃ t, r = .next t := by
  cases r <;> simp_all [nextOf]

/-! ### Decoding and encoding (95 section 2.1) -/

theorem test_decode_nop : decode 0b00000000#8 = .nop ∧ decode 0b00001111#8 = .nop := by decide
theorem test_decode_lda : decode 0b00011110#8 = .lda 14#4 := by decide
theorem test_decode_add : decode 0b00101111#8 = .add 15#4 := by decide
theorem test_decode_sub : decode 0b00111100#8 = .sub 12#4 := by decide
theorem test_decode_sta : decode 0b01001101#8 = .sta 13#4 := by decide
theorem test_decode_ldi : decode 0b01011111#8 = .ldi 15#4 := by decide
theorem test_decode_jmp : decode 0b01100001#8 = .jmp 1#4 := by decide
theorem test_decode_jc : decode 0b01110101#8 = .jc 5#4 := by decide
theorem test_decode_jz : decode 0b10001111#8 = .jz 15#4 := by decide
theorem test_decode_reserved :
    decode 0b10010000#8 = .reserved1001 0#4 ∧ decode 0b10100101#8 = .reserved1010 5#4 ∧
    decode 0b10110000#8 = .reserved1011 0#4 ∧ decode 0b11001111#8 = .reserved1100 15#4 := by decide
theorem test_decode_clr : decode 0b11010111#8 = .clr := by decide
theorem test_decode_out : decode 0b11100011#8 = .out := by decide
theorem test_decode_hlt : decode 0b11111111#8 = .hlt := by decide
theorem test_decode_no_bytes : decodeBytes [] = .error .noBytes := rfl
theorem test_decode_table_word : decodeTableWord 8 0x1E = some (.lda 14#4) ∧ decodeTableWord 16 0x1E = none := by decide

/-- Encodings of 95 section 2.1, "Encode". -/
theorem test_encode_words :
    encode (.lda 14#4) = 0x1E#8 ∧ encode .nop = 0x00#8 ∧ encode .hlt = 0xF0#8 ∧ encode .out = 0xE0#8 ∧
    encode .clr = 0xD0#8 ∧ encode (.ldi 15#4) = 0x5F#8 ∧ encode (.jz 0#4) = 0x80#8 := by decide

/-! ### Ill-formed terms -/

theorem test_ill_formed_1001 : (Instr.reserved1001 0#4).wellFormed = false := rfl
theorem test_ill_formed_1010 : (Instr.reserved1010 5#4).wellFormed = false := rfl
theorem test_ill_formed_1011 : (Instr.reserved1011 9#4).wellFormed = false := rfl
theorem test_ill_formed_1100 : (Instr.reserved1100 15#4).wellFormed = false := rfl

/-- An address or immediate above 15, a data byte above 255 and a line at address 16 do not assemble (R79). -/
theorem test_assembler_refuses :
    assembleItem (.lda 16) = none ∧ assembleItem (.ldi 16) = none ∧ assembleItem (.byte 256) = none ∧
    assembleItem (.jz 15) = some 0x8F#8 := by decide
theorem test_assembler_refuses_address :
    (assemble [⟨some 16, .nop⟩] (fun _ => 0#8)).isSome = false ∧
    (assemble [⟨some 15, .nop⟩, ⟨none, .nop⟩] (fun _ => 0#8)).isSome = false := by decide

/-! ### NOP and HLT (95 section 2.2) -/

theorem test_nop_wraps : after (start 15#4 0#8 []) (·.pc) = some 0#4 := by decide
theorem test_nop_ignores_parameter : after (start 6#4 0#8 [(6, 0x09#8)]) (·.pc) = some 7#4 := by decide
theorem test_hlt_halts :
    after (start 15#4 0#8 [(15, 0xFF#8)]) (fun t => (t.pc, t.halt)) = some (0#4, true) := by decide
theorem test_hlt_no_step : faultOf (step { start 15#4 0#8 [] with halt := true }) = some .halted := by decide

/-! ### LDA, STA, LDI (95 section 2.3) -/

theorem test_lda_own_encoding : after (start 4#4 0#8 [(4, 0x14#8)]) (fun t => (t.a, t.pc)) = some (0x14#8, 5#4) := by
  decide
theorem test_lda_keeps_flags :
    after (start 2#4 0x55#8 [(2, 0x19#8)]) (fun t => (t.a, t.zf)) = some (0x00#8, false) := by decide
theorem test_sta_stores :
    after (start 6#4 0x2C#8 [(6, 0x4F#8), (15, 0xFF#8)]) (fun t => (t.memRead 15#4, t.a, t.pc)) =
      some (0x2C#8, 0x2C#8, 7#4) := by decide
theorem test_sta_zero_unlists : after (start 2#4 0x00#8 [(2, 0x43#8), (3, 0x77#8)]) (·.ram) = some [(2, 0x43#8)] := by
  decide
theorem test_ldi_clears_high : after (start 0#4 0xAB#8 [(0, 0x55#8)]) (·.a) = some 0x05#8 := by decide
theorem test_ldi_zero_keeps_zf : after (start 0#4 0xAB#8 [(0, 0x50#8)]) (fun t => (t.a, t.zf)) = some (0x00#8, false) := by
  decide

/-! ### ADD and SUB (95 section 2.4) -/

theorem test_add_wraps :
    after (start 0#4 0xFF#8 [(0, 0x2F#8), (15, 0x01#8)]) (fun t => (t.a, t.b, t.cf, t.zf)) =
      some (0x00#8, 0x01#8, true, true) := by decide
theorem test_add_own_encoding :
    after (start 3#4 0x01#8 [(3, 0x23#8)]) (fun t => (t.a, t.cf, t.zf)) = some (0x24#8, false, false) := by decide
theorem test_sub_borrows :
    after (start 0#4 0x05#8 [(0, 0x3F#8), (15, 0x06#8)]) (fun t => (t.a, t.b, t.cf, t.zf)) =
      some (0xFF#8, 0x06#8, false, false) := by decide
theorem test_sub_equal :
    after (start 0#4 0x05#8 [(0, 0x3F#8), (15, 0x05#8)]) (fun t => (t.a, t.cf, t.zf)) = some (0x00#8, true, true) := by
  decide

/-! ### JMP, JC, JZ (95 section 2.5) -/

theorem test_jmp_jumps : after (start 15#4 0#8 [(15, 0x69#8)]) (·.pc) = some 9#4 := by decide
theorem test_jc_taken : after (flagged true false (start 2#4 0#8 [(2, 0x75#8)])) (fun t => (t.pc, t.cf)) = some (5#4, true) := by
  decide
theorem test_jc_ignores_zf : after (flagged false true (start 15#4 0#8 [(15, 0x73#8)])) (·.pc) = some 0#4 := by decide
theorem test_jz_taken : after (flagged false true (start 3#4 0#8 [(3, 0x85#8)])) (fun t => (t.pc, t.zf)) = some (5#4, true) := by
  decide
theorem test_jz_ignores_a_and_cf : after (flagged true false (start 3#4 0#8 [(3, 0x85#8)])) (·.pc) = some 4#4 := by decide

/-! ### CLR and OUT (95 section 2.6) and the reserved opcodes (95 section 2.7) -/

theorem test_out_shows :
    after (start 2#4 0xFF#8 [(2, 0xEF#8)]) (fun t => (t.out, t.trace, t.a)) = some (0xFF#8, [0xFF#8], 0xFF#8) := by decide
theorem test_clr_clears :
    after { start 5#4 0x07#8 [(5, 0xD9#8)] with out := 0x2A#8, trace := [0x2A#8] } (fun t => (t.out, t.trace, t.a)) =
      some (0x00#8, [0x2A#8, 0x00#8], 0x07#8) := by decide
theorem test_reserved_1001 : faultOf (step (start 1#4 0#8 [(1, 0x90#8)])) = some (.illegalOpcode 0x90#8 1#4) := by decide
theorem test_reserved_1010 : faultOf (step (start 0#4 0#8 [(0, 0xA7#8)])) = some (.illegalOpcode 0xA7#8 0#4) := by decide
theorem test_reserved_1011 : faultOf (step (start 5#4 0#8 [(5, 0xBF#8)])) = some (.illegalOpcode 0xBF#8 5#4) := by decide
theorem test_reserved_1100 : faultOf (step (start 5#4 0#8 [(5, 0xC0#8)])) = some (.illegalOpcode 0xC0#8 5#4) := by decide

/-! ### The micro-step level (95 section 2.8: `ADD 15` at address 1) and the host's helpers -/

theorem test_micro_t0 : (nextOf (clock (start 1#4 0x1C#8 [(1, 0x2F#8), (15, 0x0E#8)]))).map (fun t => (t.mar, t.t)) =
    some (1#4, 1#3) := by decide
theorem test_micro_t4 :
    (nextOf (clock { start 2#4 0x1C#8 [(1, 0x2F#8)] with ir := 0x2F#8, b := 0x0E#8, t := 4#3 })).map
      (fun t => (t.a, t.cf, t.zf)) = some (0x2A#8, false, false) := by decide
theorem test_micro_t4_sub :
    (nextOf (clock { start 2#4 0x1C#8 [(1, 0x3F#8)] with ir := 0x3F#8, b := 0x0E#8, t := 4#3 })).map
      (fun t => (t.a, t.cf, t.zf)) = some (0x0E#8, true, false) := by decide
theorem test_micro_floating_bus : nextOf (microStep (wordOfLines [.ai]) State.reset) = none := by decide
/-- R161, D23: BO has no effect, so that `BO AI` reads a bus without a value, as AI alone does. -/
theorem test_micro_bo_no_effect : microStep (wordOfLines [.bo, .ai]) State.reset = .refused .busFloating ∧
    microStep (wordOfLines [.ao, .bo, .oi]) State.reset = microStep (wordOfLines [.ao, .oi]) State.reset := ⟨rfl, rfl⟩
theorem test_micro_contention : busOf (wordOfLines [.ao, .ro]) State.reset = .contention := by decide
theorem test_fetch_word_runs_first : after (State.reset.withFetchWord 8 0x55) (fun t => (t.a, t.pc)) = some (0x05#8, 1#4) := by
  decide
theorem test_reset_event_ends_halt :
    (pressReset Config.zeroLaunch { start 9#4 0#8 [(0, 0x55#8)] with halt := true }).halt = false := by decide

/-! ### Witnesses: for each statement with hypotheses, states and operands that meet them together -/

theorem witness_ignored_bits :
    State.reset.ram.wf = true ∧ State.reset.halt = false ∧
    (opcodeField 0x00#8 = opcodeField 0x0F#8 ∧ opcodeField 0x00#8 = 0b0000#4) ∧
    (opcodeField 0xD0#8 = opcodeField 0xDF#8 ∧ opcodeField 0xD0#8 = 0b1101#4) ∧
    (opcodeField 0xE0#8 = opcodeField 0xEF#8 ∧ opcodeField 0xE0#8 = 0b1110#4) ∧
    (opcodeField 0xF0#8 = opcodeField 0xFF#8 ∧ opcodeField 0xF0#8 = 0b1111#4) := by decide
theorem witness_mem_read_write : (start 0#4 0#8 [(15, 0xFF#8)]).ram.wf = true ∧ (0#4 : Addr) ≠ 15#4 ∧
    (start 0#4 0#8 [(15, 0xFF#8)]).halt = false := by decide
theorem witness_canonical : Memory.wf [(0, 0x01#8), (15, 0xFF#8)] = true ∧
    ∀ x : Addr, Memory.read [(0, 0x01#8), (15, 0xFF#8)] x.toNat = Memory.read [(0, 0x01#8), (15, 0xFF#8)] x.toNat := by
  decide
theorem witness_invariant : Inv (start 15#4 0#8 [(15, 0xF0#8)]) ∧ ∃ t, step (start 15#4 0#8 [(15, 0xF0#8)]) = .next t :=
  ⟨⟨rfl, ⟨fun _ => rfl, fun h => by cases h⟩, Or.inl rfl⟩, exists_next (by decide)⟩
theorem witness_step_runs : (start 15#4 0#8 [(15, 0x6F#8)]).halt = false ∧
    decode ((start 15#4 0#8 [(15, 0x6F#8)]).memRead 15#4) = .jmp 15#4 := by decide
theorem witness_three_outcomes :
    { State.reset with halt := true }.halt = true ∧ State.reset.halt = false ∧
    (9 ≤ (opcodeField 0x90#8).toNat ∧ (opcodeField 0x90#8).toNat ≤ 12) ∧
    (9 ≤ (opcodeField 0xCF#8).toNat ∧ (opcodeField 0xCF#8).toNat ≤ 12) ∧
    (opcodeField 0x8F#8).toNat ≤ 8 ∧ 13 ≤ (opcodeField 0xD0#8).toNat ∧
    (start 0#4 0#8 [(0, 0x90#8)]).memRead 0#4 = 0x90#8 ∧ (start 0#4 0#8 [(0, 0xCF#8)]).memRead 0#4 = 0xCF#8 ∧
    (start 0#4 0#8 [(0, 0x8F#8)]).memRead 0#4 = 0x8F#8 ∧ (start 0#4 0#8 [(0, 0xD0#8)]).memRead 0#4 = 0xD0#8 := by decide
theorem witness_halted : { State.reset with halt := true }.halt = true := rfl
theorem witness_completes : Instr.nop.wellFormed = true ∧ (Instr.jz 15#4).wellFormed = true ∧ Instr.hlt.wellFormed = true :=
  ⟨rfl, rfl, rfl⟩
theorem witness_words_of_each_opcode :
    0x0F#8 &&& 0xF0#8 = 0x00#8 ∧ 0x1F#8 &&& 0xF0#8 = 0x10#8 ∧ 0x20#8 &&& 0xF0#8 = 0x20#8 ∧ 0x3F#8 &&& 0xF0#8 = 0x30#8 ∧
    0x40#8 &&& 0xF0#8 = 0x40#8 ∧ 0x5F#8 &&& 0xF0#8 = 0x50#8 ∧ 0x60#8 &&& 0xF0#8 = 0x60#8 ∧ 0x7F#8 &&& 0xF0#8 = 0x70#8 ∧
    0x80#8 &&& 0xF0#8 = 0x80#8 ∧ 0xDF#8 &&& 0xF0#8 = 0xD0#8 ∧ 0xE0#8 &&& 0xF0#8 = 0xE0#8 ∧ 0xFF#8 &&& 0xF0#8 = 0xF0#8 := by
  decide
theorem witness_nop_step : (start 15#4 0#8 [(15, 0x0F#8)]).halt = false ∧
    (start 15#4 0#8 [(15, 0x0F#8)]).memRead 15#4 &&& 0xF0#8 = 0x00#8 := by decide
theorem witness_sta : (start 6#4 0x2C#8 [(6, 0x4F#8)]).ram.wf = true ∧ (0#4 : Addr).toNat ≠ cellOf 15#4 := by decide
theorem witness_jmp_self : (start 9#4 0#8 [(9, 0x69#8)]).halt = false ∧
    (start 9#4 0#8 [(9, 0x69#8)]).memRead 9#4 = 0b0110#4 ++ 9#4 := by decide
theorem witness_conditional_jumps :
    (flagged true false State.reset).cf = true ∧ (flagged false true State.reset).cf = false ∧
    (flagged false true State.reset).zf = true ∧ (flagged true false State.reset).zf = false := ⟨rfl, rfl, rfl, rfl⟩
/-- NextPcFollowsTheTable: each clause at the wrap, JC and JZ taken and not taken. -/
theorem witness_next_pc :
    (∃ t, step (start 15#4 0#8 []) = .next t) ∧ (∃ t, step (start 15#4 0#8 [(15, 0x60#8)]) = .next t) ∧
    (∃ t, step (flagged true false (start 15#4 0#8 [(15, 0x73#8)])) = .next t) ∧
    (∃ t, step (flagged false false (start 15#4 0#8 [(15, 0x73#8)])) = .next t) ∧
    (∃ t, step (flagged false true (start 15#4 0#8 [(15, 0x83#8)])) = .next t) ∧
    (∃ t, step (flagged false false (start 15#4 0#8 [(15, 0x83#8)])) = .next t) := by
  refine ⟨?_, ?_, ?_, ?_, ?_, ?_⟩ <;> exact exists_next (by decide)
/-- OnlyFourInstructionsWriteA, OnlyAddAndSubWriteB, FlagsPersistExceptAddAndSub: a step of OUT, of ADD and of SUB. -/
theorem witness_register_writers :
    ((∃ t, step (start 0#4 1#8 [(0, 0xE0#8)]) = .next t) ∧
      ∀ p : Nibble, decode 0xE0#8 ≠ .lda p ∧ decode 0xE0#8 ≠ .ldi p ∧ decode 0xE0#8 ≠ .add p ∧ decode 0xE0#8 ≠ .sub p) ∧
    ((∃ t, step (start 0#4 1#8 [(0, 0x2F#8)]) = .next t) ∧ decode 0x2F#8 = .add 15#4) ∧
    ((∃ t, step (start 0#4 1#8 [(0, 0x30#8)]) = .next t) ∧ decode 0x30#8 = .sub 0#4) := by
  refine ⟨⟨exists_next (by decide), by decide⟩, ⟨exists_next (by decide), by decide⟩, exists_next (by decide), by decide⟩
/-- OnlyStaWritesRam and StoreIsSeenByTheNextFetch: a STA to the next cell to be fetched (95 section 2.3), and no STA. -/
theorem witness_store_then_fetch :
    (start 5#4 0xF0#8 [(5, 0x46#8)]).ram.wf = true ∧ decode ((start 5#4 0xF0#8 [(5, 0x46#8)]).memRead 5#4) = .sta 6#4 ∧
    after (start 5#4 0xF0#8 [(5, 0x46#8)]) (·.pc) = some 6#4 ∧ (∀ p : Addr, decode 0xD0#8 ≠ .sta p) ∧
    after (start 5#4 0xF0#8 [(5, 0xD0#8)]) (·.pc) = some 6#4 := by decide
/-- OnlyOutAndClrReachTheDisplay: OUT, CLR and another instruction; OnlyHltHalts: words 0xEF and 0xF0. -/
theorem witness_output_and_halt :
    (∃ t, step (start 0#4 1#8 [(0, 0xEF#8)]) = .next t) ∧ (∃ t, step (start 0#4 1#8 [(0, 0xD0#8)]) = .next t) ∧
    (∃ t, step (start 0#4 1#8 [(0, 0xF0#8)]) = .next t) ∧ decode 0xEF#8 = .out ∧ decode 0xD0#8 = .clr := by
  refine ⟨?_, ?_, ?_, by decide, by decide⟩ <;> exact exists_next (by decide)
/-- IrAndMarAtTheBoundary: LDA, ADD, SUB, STA and an instruction without an operand's cell. -/
theorem witness_ir_and_mar :
    after (start 4#4 0#8 [(4, 0x1E#8)]) (·.mar) = some 14#4 ∧ after (start 4#4 0#8 [(4, 0x2E#8)]) (·.mar) = some 14#4 ∧
    after (start 4#4 0#8 [(4, 0x3E#8)]) (·.mar) = some 14#4 ∧ after (start 4#4 0#8 [(4, 0x4E#8)]) (·.mar) = some 14#4 ∧
    after (start 4#4 0#8 [(4, 0x6E#8)]) (·.mar) = some 4#4 := by decide
theorem witness_scratch : AgreeButScratch (start 0#4 7#8 [(0, 0xE0#8)])
    { start 0#4 7#8 [(0, 0xE0#8)] with b := 0xFF#8, ir := 0xF0#8, mar := 15#4 } := by
  refine ⟨?_, ?_, ?_, ?_, ?_, ?_, ?_, ?_, ?_, ?_⟩ <;> rfl
/-- InLinesLoadFromTheBus, NxtEndsEveryMicroprogram and JumpLinesActAsGatedLoad: micro-steps with a next state. -/
theorem witness_micro_steps :
    (∃ t, microStep (wordOfLines [.io, .mi]) State.reset = .next t) ∧ asserted (wordOfLines [.io, .mi]) .mi = true ∧
    (∃ t, microStep (wordOfLines [.ao, .ri]) State.reset = .next t) ∧ asserted (wordOfLines [.ao, .ri]) .ri = true ∧
    (∃ t, microStep (wordOfLines [.ro, .ai]) State.reset = .next t) ∧ asserted (wordOfLines [.ro, .ai]) .ai = true ∧
    (∃ t, microStep (wordOfLines [.ro, .bi]) State.reset = .next t) ∧ asserted (wordOfLines [.ro, .bi]) .bi = true ∧
    (∃ t, microStep (wordOfLines [.ao, .oi]) State.reset = .next t) ∧ asserted (wordOfLines [.ao, .oi]) .oi = true ∧
    asserted (wordOfLines [.ao, .oi]) .oc = false := by
  refine ⟨?_, by decide, ?_, by decide, ?_, by decide, ?_, by decide, ?_, by decide, by decide⟩ <;>
    exact exists_next (by decide)
/-- OutLinesDriveTheBus: a bus value under each of the six Out lines, ΣO with and without SO. -/
theorem witness_bus_values :
    busOf (wordOfLines [.ro]) (start 0#4 0#8 [(0, 0x2F#8)]) = .value 0x2F#8 ∧
    busOf (wordOfLines [.io]) { State.reset with ir := 0x5F#8 } = .value 0x0F#8 ∧
    busOf (wordOfLines [.ao]) (start 0#4 0x2A#8 []) = .value 0x2A#8 ∧
    busOf (wordOfLines [.bo]) { State.reset with b := 0x0E#8 } = .value 0x0E#8 ∧
    busOf (wordOfLines [.sumOut]) { start 0#4 0x1C#8 [] with b := 0x0E#8 } = .value 0x2A#8 ∧
    busOf (wordOfLines [.so, .sumOut]) { start 0#4 0x1C#8 [] with b := 0x0E#8 } = .value 0x0E#8 ∧
    busOf (wordOfLines [.co]) (start 15#4 0#8 []) = .value 0x0F#8 := by decide
/-- FlagsPersistExceptAddAndSub, InLinesLoadFromTheBus, BusIsDefinedWhenUsed, LinesNoMicroprogramAsserts and
NxtEndsEveryMicroprogram: control words and microprograms exist, at t0, at t2 and at the longest one's t5 (R168). -/
theorem witness_control_words :
    controlWordAt (.add 15#4) 0#3 = some 0x400020#24 ∧ controlWordAt (.add 15#4) 2#3 = some 0x440000#24 ∧
    controlWordAt (.add 15#4) 4#3 = some 0x022800#24 ∧ controlWordAt (.add 15#4) 5#3 = some 0x000001#24 ∧
    controlWordAt .nop 2#3 = some 0x000001#24 ∧ controlWordAt .nop 3#3 = none ∧ State.reset.halt = false ∧
    readsBus 0x440000#24 = true ∧ microprogram .nop = some [[.nxt]] := by decide
/-- LinesNoMicroprogramAsserts: two words that differ, in the bits 14, 8, 2 and 1 only, under which the clock goes on. -/
theorem witness_unused_lines : (0x004107#24 : ControlWord) ≠ 0x000001#24 ∧
    (∀ k : Nat, k ≠ 14 → k ≠ 8 → k ≠ 2 → k ≠ 1 → (0x004107#24).getLsbD k = (0x000001#24).getLsbD k) ∧
    ∃ t, microStep 0x004107#24 State.reset = .next t := by
  refine ⟨by decide, fun k h14 h8 h2 h1 => ?_, exists_next (by decide)⟩
  by_cases hk : k < 24
  · interval_cases k <;> first | rfl | contradiction
  · rw [BitVec.getLsbD_of_ge _ _ (by omega), BitVec.getLsbD_of_ge _ _ (by omega)]
theorem witness_micro_invariant : MicroInv { start 2#4 0#8 [(1, 0x2F#8)] with ir := 0x2F#8, t := 4#3 } ∧
    ∃ t, clock { start 2#4 0#8 [(1, 0x2F#8)] with ir := 0x2F#8, t := 4#3 } = .next t :=
  ⟨⟨rfl, Or.inl rfl, fun _ _ => by decide⟩, exists_next (by decide)⟩
theorem witness_boundary : State.reset.t = 0#3 ∧ State.reset.halt = false ∧
    (decode (State.reset.memRead State.reset.pc)).wellFormed = true := by decide
theorem witness_assembler :
    assembleItem (.lda 15) = some 0x1F#8 ∧ assembleItem (.add 0) = some 0x20#8 ∧ assembleItem (.sub 12) = some 0x3C#8 ∧
    assembleItem (.sta 13) = some 0x4D#8 ∧ assembleItem (.ldi 5) = some 0x55#8 ∧ assembleItem (.jmp 1) = some 0x61#8 ∧
    assembleItem (.jc 5) = some 0x75#8 ∧ assembleItem (.jz 15) = some 0x8F#8 ∧ assembleItem (.byte 255) = some 0xFF#8 := by
  decide
/-- AssemblerLeavesUnnamedCells: two lines at the first and the last cell, with a cell between that no line names; each
named cell is named by exactly one of them. -/
theorem witness_assembler_placement :
    (assemble [⟨some 0, .lda 15⟩, ⟨some 15, .byte 255⟩] (fun _ => 0xAA#8)).map (fun f => (f 0#4, f 15#4, f 14#4)) =
      some (0x1F#8, 0xFF#8, 0xAA#8) ∧
    (∀ l ∈ [(⟨some 0, .lda 15⟩ : AsmLine), ⟨some 15, .byte 255⟩], l.address.isSome = true) ∧
    (∀ l ∈ [(⟨some 0, .lda 15⟩ : AsmLine)] ++ [], ∃ n, l.address = some n ∧ n ≠ (15#4 : Addr).toNat) ∧
    (⟨some 15, .byte 255⟩ : AsmLine).address = some (15#4 : Addr).toNat ∧ assembleItem (.byte 255) = some 0xFF#8 ∧
    ∀ l ∈ [(⟨some 0, .lda 15⟩ : AsmLine), ⟨some 15, .byte 255⟩], ∃ n, l.address = some n ∧ n ≠ (14#4 : Addr).toNat := by
  refine ⟨by decide, by decide, ?_, rfl, by decide, ?_⟩ <;> intro l hl <;>
    simp only [List.append_nil, List.mem_cons, List.not_mem_nil, or_false] at hl
  · subst hl
    exact ⟨0, rfl, by decide⟩
  · rcases hl with rfl | rfl
    · exact ⟨0, rfl, by decide⟩
    · exact ⟨15, rfl, by decide⟩
/-- A run that has ended: SafeRunsStopOnlyByHalting. -/
theorem witness_safe_run : SafeRun { State.reset with halt := true } ∧
    Reaches { State.reset with halt := true } { State.reset with halt := true } := by
  refine ⟨?_, 0, rfl⟩
  rintro s' ir addr ⟨k, hk⟩ h
  cases k with
  | zero => cases hk; cases h
  | succ k => cases hk
/-- RunsEndInAtMostOneState: the run that executes HLT at address 15 ends. -/
theorem witness_end : ∃ t, EndsIn (start 15#4 0#8 [(15, 0xF0#8)]) t :=
  ⟨_, ⟨1, rfl⟩, rfl⟩
/-- TraceOnlyGrowsAlongRuns and RunCyclesAddUp: OUT, then NOP, have next states; 3 cycles for the OUT (R207). -/
theorem witness_runs :
    (∃ t u, runSteps 1 (start 0#4 1#8 [(0, 0xE0#8)]) = .next t ∧ runSteps 1 t = .next u) ∧
    runCycles 1 (start 0#4 1#8 [(0, 0xE0#8)]) = some 3 :=
  ⟨⟨_, _, rfl, rfl⟩, by decide⟩
/-- MicroStepWritesOnlyWhatItsLinesSay: micro-steps with a next state under HLT, II and CE, FI, OC, and CI. -/
theorem witness_micro_effects :
    (∃ t, microStep (wordOfLines [.hlt]) State.reset = .next t) ∧
    (∃ t, microStep (wordOfLines [.ro, .ii, .ce]) (start 15#4 0#8 []) = .next t) ∧
    (∃ t, microStep (wordOfLines [.sumOut, .ai, .fi]) State.reset = .next t) ∧
    (∃ t, microStep (wordOfLines [.oc]) State.reset = .next t) ∧
    (∃ t, microStep (wordOfLines [.io, .ci]) State.reset = .next t) ∧
    asserted (wordOfLines [.ro, .ii, .ce]) .ii = true ∧ asserted (wordOfLines [.ro, .ii, .ce]) .ce = true ∧
    asserted (wordOfLines [.io, .ci]) .ci = true ∧ asserted (wordOfLines [.io, .ci]) .ce = false := by
  refine ⟨?_, ?_, ?_, ?_, ?_, by decide⟩ <;> exact exists_next (by decide)

end Sys2Proof.Tests
end

section
/-! SUPPORT. Who writes register B (rule R22 of spec/10_state.md): the next states of ADD and SUB, and the frame of B for
every other instruction. -/

namespace Sys2Proof.Machine

/-- The execute phase of ADD (R110): its operand's cell and what one ALU output writes. -/
theorem exec_add (p : Addr) (s : State) :
    exec (.add p) s = .next (arithmetic false (s.memRead p) (s.setMar p)) := rfl

/-- The execute phase of SUB (R111). -/
theorem exec_sub (p : Addr) (s : State) :
    exec (.sub p) s = .next (arithmetic true (s.memRead p) (s.setMar p)) := rfl

/-- The shared execute phase of ADD and SUB loads B with the operand. -/
@[simp] theorem arithmetic_b (sub : Bool) (v : Byte) (s : State) : (arithmetic sub v s).b = v := by
  rw [arithmetic_eq]

/-- The shared execute phase of ADD and SUB takes A from the ALU with the operand, not with the old B (R116). -/
@[simp] theorem arithmetic_a (sub : Bool) (v : Byte) (s : State) :
    (arithmetic sub v s).a = aluResult s.a v sub := by
  rw [arithmetic_eq]

/-- A conditional jump keeps B, taken or not. -/
@[simp] theorem jumpIf_b (flag : Bool) (x : Addr) (s : State) : (jumpIf flag x s).b = s.b := by
  rw [jumpIf_eq]

/-- A store keeps B. -/
@[simp] theorem storeOperand_b (x : Addr) (v : Byte) (s : State) : (storeOperand x v s).b = s.b := by
  rw [storeOperand_eq]

/-- Selecting the operand's cell keeps B. -/
@[simp] theorem selectOperand_b (x : Addr) (s : State) : (selectOperand x s).b = s.b := by
  rw [selectOperand_eq]

/-- Every instruction but ADD and SUB keeps B; the four reserved opcodes have no next state. -/
theorem exec_keeps_b {i : Instr} {s t : State} (h : exec i s = .next t)
    (hadd : ∀ p, i ≠ .add p) (hsub : ∀ p, i ≠ .sub p) : t.b = s.b := by
  cases i with
  | add p => exact absurd rfl (hadd p)
  | sub p => exact absurd rfl (hsub p)
  | reserved1001 | reserved1010 | reserved1011 | reserved1100 => cases h
  | nop => cases h; rfl
  | lda p => cases h; rw [State.setA_b, selectOperand_b]
  | sta p => cases h; exact storeOperand_b p s.a s
  | ldi v => cases h; exact State.setA_b s (immediate v)
  | jmp p => cases h; exact State.setPc_b s p
  | jc p => cases h; exact jumpIf_b s.cf p s
  | jz p => cases h; exact jumpIf_b s.zf p s
  | clr => cases h; exact State.showOut_b s 0x00#8
  | out => cases h; exact State.showOut_b s s.a
  | hlt => cases h; exact State.stopClock_b s 2#3

/-- A step with a next state ran the instruction that the word at pc decodes to, after the fetch (R9). -/
theorem exec_of_decode {s t : State} {i : Instr} (h : step s = .next t) (hi : decode (s.memRead s.pc) = i) :
    exec i s.fetched = .next t := by
  obtain ⟨_, hexec⟩ := step_next h
  rwa [State.fetchWord, hi] at hexec

/-- A step that fetches ADD ends in the arithmetic state of its cell, taken after the fetch. -/
theorem step_add {s t : State} {p : Addr} (h : step s = .next t) (hp : decode (s.memRead s.pc) = .add p) :
    t = arithmetic false (s.memRead p) (s.fetched.setMar p) :=
  Host.Outcome.next.inj ((exec_of_decode h hp).symm.trans (exec_add p s.fetched))

/-- A step that fetches SUB ends in the arithmetic state of its cell, taken after the fetch. -/
theorem step_sub {s t : State} {p : Addr} (h : step s = .next t) (hp : decode (s.memRead s.pc) = .sub p) :
    t = arithmetic true (s.memRead p) (s.fetched.setMar p) :=
  Host.Outcome.next.inj ((exec_of_decode h hp).symm.trans (exec_sub p s.fetched))

/-- Settles O32: ADD and SUB end in the arithmetic state of the addressed cell, whose A is computed from the B just
loaded; the fetch and every other execute phase keep B. -/
theorem onlyAddAndSubWriteB : Obligations.OnlyAddAndSubWriteB := by
  unfold Obligations.OnlyAddAndSubWriteB
  intro s t h
  refine ⟨fun p hp => ?add, fun p hp => ?sub, fun hother => ?other⟩
  case add =>
    rw [step_add h hp]
    simp only [arithmetic_b, arithmetic_a, State.setMar_a, State.fetched_a, and_self]
  case sub =>
    rw [step_sub h hp]
    simp only [arithmetic_b, arithmetic_a, State.setMar_a, State.fetched_a, and_self]
  case other =>
    calc t.b = s.fetched.b := exec_keeps_b (exec_of_decode h rfl) (fun p => (hother p).1) (fun p => (hother p).2)
      _ = s.b := State.fetched_b s

end Sys2Proof.Machine
end

section
/-! SUPPORT. The micro-step level of a RAM access (rules R52 and R53 of spec/20_memory.md): the next states of `IO MI`,
`RO AI` and `AO RI` on a running machine, and that an address and then a read or a write make `MemRead` or `MemWrite`. -/

namespace Sys2Proof.Machine

/-- A running machine whose used lines put a value on the bus loads that value. -/
theorem microStep_of_bus {cw : ControlWord} {s : State} {v : Byte} (hrun : s.halt = false)
    (hbus : busOf (usedLines cw) s = .value v) : microStep cw s = .next (latch cw v s) := by
  simp only [microStep, hrun, hbus, Bool.false_eq_true, if_false]

/-- The low nibble of the value IO puts on the bus is the parameter field it was made from. -/
@[simp] theorem parameterField_immediate (p : Nibble) : parameterField (immediate p) = p :=
  parameterField_wordOfFields Config.ldiHigh p

/-- `IO MI` selects the cell that the parameter field of IR names (R141, R146). -/
theorem microStep_io_mi {s : State} (hrun : s.halt = false) :
    microStep (wordOfLines [.io, .mi]) s = .next { s.setMar (parameterField s.ir) with t := s.t + 1#3 } := by
  have hbus : busOf (usedLines (wordOfLines [.io, .mi])) s = .value (immediate (parameterField s.ir)) := rfl
  rw [microStep_of_bus hrun hbus]
  simp [latch, latchPc, latchT, asserted, lineBit, wordOfLines, State.setMar]

/-- `RO AI` loads A with the cell at MAR (R143, R147). -/
theorem microStep_ro_ai {s : State} (hrun : s.halt = false) :
    microStep (wordOfLines [.ro, .ai]) s = .next { s.setA (s.memRead s.mar) with t := s.t + 1#3 } := by
  have hbus : busOf (usedLines (wordOfLines [.ro, .ai])) s = .value (s.memRead s.mar) := rfl
  rw [microStep_of_bus hrun hbus]
  simp [latch, latchPc, latchT, asserted, lineBit, wordOfLines, State.setA]

/-- `AO RI` stores A in the cell at MAR (R142, R148). -/
theorem microStep_ao_ri {s : State} (hrun : s.halt = false) :
    microStep (wordOfLines [.ao, .ri]) s = .next { s.memWrite s.mar s.a with t := s.t + 1#3 } := by
  have hbus : busOf (usedLines (wordOfLines [.ao, .ri])) s = .value s.a := rfl
  rw [microStep_of_bus hrun hbus]
  simp [latch, latchPc, latchT, asserted, lineBit, wordOfLines, State.memWrite]

/-- Settles O6: the laws of the RAM list give the instruction level; the micro-steps after `IO MI` act at the MAR it
left, which is the address. -/
theorem memReadAndMemWrite : Obligations.MemReadAndMemWrite := by
  unfold Obligations.MemReadAndMemWrite
  refine ⟨fun s x v hwf => ?instructionLevel, fun s hrun => ⟨_, microStep_io_mi hrun, ?read, ?write⟩⟩
  case instructionLevel =>
    exact ⟨State.memRead_memWrite_same hwf x v, fun y hy => State.memRead_memWrite_ne s v hy, rfl⟩
  case read => exact ⟨_, microStep_ro_ai hrun, rfl, rfl, fun _ => rfl⟩
  case write => exact ⟨_, microStep_ao_ri hrun, fun _ => rfl⟩

end Sys2Proof.Machine
end

section
/-! SUPPORT. The opcode of a word under the mask 0xF0 (rules R74 and R75 of spec/30_encoding.md): the masked word alone
selects the instruction. -/

namespace Sys2Proof

/-- A word is its two fields put together (R71). -/
@[simp] theorem wordOfFields_fields (w : Byte) : wordOfFields (opcodeField w) (parameterField w) = w := by
  have hjoin := BitVec.extractLsb'_append_extractLsb'_eq_extractLsb' (x := w) (start₁ := 0) (len₁ := 4)
    (start₂ := 4) (len₂ := 4) rfl
  exact hjoin.trans BitVec.extractLsb'_eq_self

/-- The mask 0xF0 keeps the opcode field (R74). -/
@[simp] theorem opcodeField_and_mask (w : Byte) : opcodeField (w &&& 0xF0#8) = opcodeField w := by
  have hmask : (0xF0#8).extractLsb' 4 4 = BitVec.allOnes 4 := rfl
  rw [opcodeField, BitVec.extractLsb'_and, hmask, BitVec.and_allOnes, opcodeField]

/-- A word that passes the test `(w & 0xF0) = match` of the row of opcode `op` decodes as that opcode with the word's own
parameter (R74, R75). -/
theorem decode_of_and_mask {w : Byte} {op : Nibble} (h : w &&& 0xF0#8 = wordOfFields op 0#4) :
    decode w =
      instrOfFields (op.getLsbD 3) (op.getLsbD 2) (op.getLsbD 1) (op.getLsbD 0) (parameterField w) := by
  have hop : opcodeField w = op := by
    rw [← opcodeField_and_mask, h, opcodeField_wordOfFields]
  calc decode w = decode (wordOfFields op (parameterField w)) := by rw [← hop, wordOfFields_fields]
    _ = _ := decode_wordOfFields op (parameterField w)

end Sys2Proof
end

section
/-! SUPPORT. NOP (rule R90 of spec/40_control_nop_hlt.md): all sixteen words 0x0x, and a step that is its fetch and
advance alone. -/

namespace Sys2Proof.Machine

/-- The fetch and advance of R9 in one update: pc, IR and MAR, and nothing else. -/
theorem State.fetched_eq (s : State) :
    s.fetched = { s with pc := s.pc + 1#4, ir := s.memRead s.pc, mar := s.pc } := rfl

/-- The step of a running machine executes what the word at pc decodes to, after the fetch (R9). -/
theorem step_of_decode {s : State} {i : Instr} (hrun : s.halt = false) (hi : decode (s.memRead s.pc) = i) :
    step s = exec i s.fetched := by
  rw [step_running hrun, State.fetchWord, hi]

/-- The execute phase of NOP does nothing (R90). -/
@[simp] theorem exec_nop (s : State) : exec .nop s = .next s := rfl

/-- The words 0x0x are NOP, whatever their ignored parameter (R74, R77). -/
theorem decode_eq_nop {w : Byte} (h : w &&& 0xF0#8 = 0x00#8) : decode w = .nop :=
  decode_of_and_mask (op := 0b0000#4) h

/-- Settles O18: the masked word selects NOP, whose execute phase keeps the state that the fetch and advance leave. -/
theorem nopOnlyAdvances : Obligations.NopOnlyAdvances := by
  unfold Obligations.NopOnlyAdvances
  refine ⟨fun _ => decode_eq_nop, rfl, rfl, rfl, exec_nop, fun s hrun hword => ?_⟩
  calc step s = exec .nop s.fetched := step_of_decode hrun (decode_eq_nop hword)
    _ = .next s.fetched := exec_nop s.fetched
    _ = _ := by rw [State.fetched_eq]

end Sys2Proof.Machine
end

section
/-! SUPPORT. STA and LDA (rules R100 and R101 of spec/41_load_store.md): their sixteen words each, and their execute phase
as the named updates of Machine/Ops.lean, whose laws give the effect and the frame. -/

namespace Sys2Proof.Machine

/-- Selecting a cell changes no cell (R52). -/
@[simp] theorem State.memRead_setMar (s : State) (p x : Addr) : (s.setMar p).memRead x = s.memRead x := rfl

/-- Loading A changes no cell. -/
@[simp] theorem State.memRead_setA (s : State) (v : Byte) (x : Addr) : (s.setA v).memRead x = s.memRead x := rfl

/-- The words 0x4x are STA of their low nibble (R74). -/
theorem decode_eq_sta {w : Byte} (h : w &&& 0xF0#8 = 0x40#8) : decode w = .sta (parameterField w) :=
  decode_of_and_mask (op := 0b0100#4) h

/-- The words 0x1x are LDA of their low nibble (R74). -/
theorem decode_eq_lda {w : Byte} (h : w &&& 0xF0#8 = 0x10#8) : decode w = .lda (parameterField w) :=
  decode_of_and_mask (op := 0b0001#4) h

/-- The execute phase of STA (R101): select the cell, then write A to it. -/
theorem exec_sta (p : Addr) (s : State) : exec (.sta p) s = .next ((s.setMar p).memWrite p s.a) := rfl

/-- The execute phase of LDA (R100): select the cell, then load A from it. -/
theorem exec_lda (p : Addr) (s : State) : exec (.lda p) s = .next ((s.setMar p).setA (s.memRead p)) := rfl

/-- Settles O21: the laws of one RAM write give the cells and the canonical form; a write keeps every register but the
MAR that selected its cell. -/
theorem staStoresTheAccumulator : Obligations.StaStoresTheAccumulator := by
  unfold Obligations.StaStoresTheAccumulator
  refine ⟨fun _ => decode_eq_sta, fun _ => ⟨rfl, rfl⟩, fun p s hwf => ?_⟩
  refine ⟨_, exec_sta p s, ?written, ?others, ?canonical, ?frame⟩
  case written => exact State.memRead_memWrite_same (s := s.setMar p) hwf p s.a
  case others =>
    intro x hx
    have hne : x ≠ p := mt (congrArg BitVec.toNat) hx
    rw [State.memRead_memWrite_ne _ s.a hne, State.memRead_setMar]
  case canonical => exact State.memWrite_wf (s := s.setMar p) hwf p s.a
  case frame => simp

/-- Settles O20: A takes the cell; selecting it and loading A keep every other register and every cell. -/
theorem ldaLoadsTheCell : Obligations.LdaLoadsTheCell := by
  unfold Obligations.LdaLoadsTheCell
  refine ⟨fun _ => decode_eq_lda, fun _ => ⟨rfl, rfl⟩, fun p s => ⟨_, exec_lda p s, ?loaded, ?frame⟩⟩
  case loaded => exact State.setA_a (s.setMar p) (s.memRead p)
  case frame => simp

end Sys2Proof.Machine
end

section
/-! SUPPORT. A conditional jump after a comparison by SUB (rules R114 and R115 of spec/42_arithmetic.md): the two flags of
SUB as a comparison of the old A with the cell, and JC and JZ as one update of pc. -/

namespace Sys2Proof.Machine

/-- CF after a subtraction is "no borrow" (R114; D6). -/
theorem aluCarry_sub_iff (a b : Byte) : aluCarry a b true = true ↔ b.toNat ≤ a.toNat := by
  rw [aluCarry_iff, aluSum_sub]
  omega

/-- The difference is zero exactly when its two inputs are equal: both are below 256, so that no other sum is a multiple
of 256. -/
theorem aluResult_sub_eq_zero_iff (a b : Byte) : aluResult a b true = 0x00#8 ↔ a = b := by
  rw [← BitVec.toNat_inj, ← BitVec.toNat_inj, aluResult_toNat, aluSum_sub, BitVec.toNat_ofNat]
  omega

/-- ZF after a subtraction is equality of its inputs (R115; D7). -/
theorem zeroFlag_sub_iff (a b : Byte) : zeroFlag (aluResult a b true) = true ↔ a = b :=
  (zeroFlag_iff _).trans (aluResult_sub_eq_zero_iff a b)

/-- The shared execute phase of ADD and SUB keeps pc. -/
@[simp] theorem arithmetic_pc (sub : Bool) (v : Byte) (s : State) : (arithmetic sub v s).pc = s.pc := by
  rw [arithmetic_eq]

/-- CF is the carry of the old A and the operand (R116; D8). -/
@[simp] theorem arithmetic_cf (sub : Bool) (v : Byte) (s : State) :
    (arithmetic sub v s).cf = aluCarry s.a v sub := by
  rw [arithmetic_eq]

/-- ZF is the zero test of the result of the old A and the operand (R116; D8). -/
@[simp] theorem arithmetic_zf (sub : Bool) (v : Byte) (s : State) :
    (arithmetic sub v s).zf = zeroFlag (aluResult s.a v sub) := by
  rw [arithmetic_eq]

/-- The execute phase of JC (R121): pc becomes the target or stays, by CF alone. -/
theorem exec_jc (y : Addr) (s : State) : exec (.jc y) s = .next { s with pc := if s.cf then y else s.pc } :=
  congrArg Host.Outcome.next (jumpIf_eq s.cf y s)

/-- The execute phase of JZ (R122): pc becomes the target or stays, by ZF alone. -/
theorem exec_jz (y : Addr) (s : State) : exec (.jz y) s = .next { s with pc := if s.zf then y else s.pc } :=
  congrArg Host.Outcome.next (jumpIf_eq s.zf y s)

/-- Settles O41: each jump tests the flag that SUB took from the old A and the cell, and that flag is the comparison. -/
theorem conditionalJumpsAfterSubCompare : Obligations.ConditionalJumpsAfterSubCompare := by
  unfold Obligations.ConditionalJumpsAfterSubCompare
  intro s x y
  refine ⟨_, exec_sub x s, ?carry, ?zero⟩
  case carry => simp only [exec_jc, arithmetic_cf, arithmetic_pc, State.setMar_a, State.setMar_pc, aluCarry_sub_iff]
  case zero => simp only [exec_jz, arithmetic_zf, arithmetic_pc, State.setMar_a, State.setMar_pc, zeroFlag_sub_iff]

end Sys2Proof.Machine
end

section
/-! SUPPORT. JMP (rule R120 of spec/43_jumps.md): its sixteen words, its execute phase, and the endless loop of a jump to
its own address. -/

namespace Sys2Proof.Machine

/-- The words 0x6x are JMP to their low nibble (R74). -/
theorem decode_eq_jmp {w : Byte} (h : w &&& 0xF0#8 = 0x60#8) : decode w = .jmp (parameterField w) :=
  decode_of_and_mask (op := 0b0110#4) h

/-- The execute phase of JMP (R120): pc takes the target. -/
theorem exec_jmp (y : Addr) (s : State) : exec (.jmp y) s = .next { s with pc := y } := rfl

/-- A run of at least one step of any machine goes on from the next state that its first step answers. -/
theorem coreRun_succ_of_step {M : Host.Core} {s u : M.State} (h : M.step s = .next u) (k : Nat) :
    M.run (k + 1) s = M.run k u := by
  simp only [Host.Core.run, h]

/-- The run of this machine goes on from the next state that its first step answers (R210). -/
theorem runSteps_succ_of_step {s u : State} (h : step s = .next u) (k : Nat) :
    runSteps (k + 1) s = runSteps k u :=
  coreRun_succ_of_step (M := core) h k

/-- A jump to its own address puts pc back where the fetch found it, so that the step changes only IR and MAR (R120). -/
theorem step_jmp_self {s : State} (hrun : s.halt = false) (hword : s.memRead s.pc = wordOfFields 0b0110#4 s.pc) :
    step s = .next { s with ir := s.memRead s.pc, mar := s.pc } := by
  have hjmp : decode (s.memRead s.pc) = .jmp s.pc := by
    rw [hword]
    exact decode_wordOfFields 0b0110#4 s.pc
  calc step s = exec (.jmp s.pc) s.fetched := step_of_decode hrun hjmp
    _ = .next { s.fetched with pc := s.pc } := exec_jmp s.pc s.fetched
    _ = _ := by rw [State.fetched_eq]

/-- A machine that stands at a jump to itself stays there: the step keeps HALT, pc and the cell at pc, so that every
later step is again such a jump. -/
theorem runSteps_jmp_self (k : Nat) {s : State} (hrun : s.halt = false)
    (hword : s.memRead s.pc = wordOfFields 0b0110#4 s.pc) :
    ∃ t : State, runSteps k s = .next t ∧ t = { s with ir := t.ir, mar := t.mar } := by
  induction k generalizing s with
  | zero => exact ⟨s, rfl, rfl⟩
  | succ k ih =>
    obtain ⟨t, hreach, hkept⟩ := ih (s := { s with ir := s.memRead s.pc, mar := s.pc }) hrun hword
    exact ⟨t, (runSteps_succ_of_step (step_jmp_self hrun hword) k).trans hreach, hkept⟩

/-- Settles O25: the masked word selects JMP, whose execute phase writes pc alone; a jump to itself is the loop of
`runSteps_jmp_self`. -/
theorem jmpAlwaysJumps : Obligations.JmpAlwaysJumps := by
  unfold Obligations.JmpAlwaysJumps
  exact ⟨fun _ => decode_eq_jmp, fun _ => ⟨rfl, rfl⟩, exec_jmp, fun _ k hrun hword => runSteps_jmp_self k hrun hword⟩

end Sys2Proof.Machine
end

section
/-! SUPPORT. Which steps assert a control line (rules R140, R165 and R167 of spec/45_microcode.md): a word asserts exactly
the lines it was built from, and the steps of an instruction that assert one line, as a list that evaluates. -/

namespace Sys2Proof.Machine

/-- The line of a bit of the control word, by its place in R140's list: `nxt` is the last and stands in bit 0. -/
def lineOfBit (k : Nat) : ControlLine := ControlLine.ofNat (if k = 0 then 21 else 23 - k)

/-- `lineOfBit` undoes `lineBit`. -/
theorem lineOfBit_lineBit (l : ControlLine) : lineOfBit (lineBit l) = l := by
  cases l <;> rfl

/-- No two lines share a bit (R140). -/
theorem lineBit_injective : Function.Injective lineBit :=
  Function.LeftInverse.injective lineOfBit_lineBit

/-- Every line has a bit inside the control word (R140). -/
theorem lineBit_lt (l : ControlLine) : lineBit l < 24 := by
  cases l <;> decide

/-- The word of a list of lines asserts exactly these lines (R140). -/
theorem asserted_wordOfLines (ls : List ControlLine) (l : ControlLine) :
    asserted (wordOfLines ls) l = true ↔ l ∈ ls := by
  induction ls with
  | nil => simp [asserted, wordOfLines]
  | cons m ls ih =>
    have hbit : lineBit m = lineBit l ↔ l = m := lineBit_injective.eq_iff.trans eq_comm
    have hone : (BitVec.ofNat 24 (2 ^ lineBit m)).getLsbD (lineBit l) = true ↔ l = m := by
      rw [BitVec.getLsbD_ofNat, Nat.testBit_two_pow]
      simp [lineBit_lt, hbit]
    rw [asserted] at ih ⊢
    rw [wordOfLines, BitVec.getLsbD_or, Bool.or_eq_true, ih, hone, List.mem_cons, or_comm]

/-- The steps, in the order of T, at which the control word of an instruction asserts a line (R165). -/
def assertingSteps (l : ControlLine) (i : Instr) : List StepCode :=
  [0#3, 1#3, 2#3, 3#3, 4#3, 5#3, 6#3, 7#3].filter fun n => (linesAt i n).any (l ∈ ·)

/-- A selected control word asserts a line exactly at the line's asserting steps. -/
theorem asserted_iff_mem_assertingSteps {i : Instr} {n : StepCode} {cw : ControlWord}
    (h : controlWordAt i n = some cw) (l : ControlLine) : asserted cw l = true ↔ n ∈ assertingSteps l i := by
  obtain ⟨ls, hls, rfl⟩ := Option.map_eq_some_iff.mp h
  have hall : ∀ m : StepCode, m ∈ [0#3, 1#3, 2#3, 3#3, 4#3, 5#3, 6#3, 7#3] := by decide
  simp only [asserted_wordOfLines, assertingSteps, List.mem_filter, hall, hls, Option.any_some, decide_eq_true_eq,
    true_and]

/-- RI is asserted in STA t3 and nowhere else (R142): the list of each case evaluates to that step, or to none. -/
theorem mem_assertingSteps_ri (i : Instr) (n : StepCode) :
    n ∈ assertingSteps .ri i ↔ n = 3#3 ∧ ∃ p, i = .sta p := by
  cases i with
  | sta p => exact List.mem_singleton.trans (by simp)
  | _ => exact iff_of_false List.not_mem_nil (by simp)

/-- AI is asserted in LDA t3, in t4 of ADD and SUB and in LDI t2, and nowhere else (R147). -/
theorem mem_assertingSteps_ai (i : Instr) (n : StepCode) :
    n ∈ assertingSteps .ai i ↔ (n = 3#3 ∧ ∃ p, i = .lda p) ∨ (n = 4#3 ∧ ∃ p, i = .add p ∨ i = .sub p) ∨
      (n = 2#3 ∧ ∃ p, i = .ldi p) := by
  cases i with
  | lda p => exact List.mem_singleton.trans (by simp)
  | add p => exact List.mem_singleton.trans (by simp)
  | sub p => exact List.mem_singleton.trans (by simp)
  | ldi p => exact List.mem_singleton.trans (by simp)
  | _ => exact iff_of_false List.not_mem_nil (by simp)

/-- BI is asserted in t3 of ADD and SUB and nowhere else (R149). -/
theorem mem_assertingSteps_bi (i : Instr) (n : StepCode) :
    n ∈ assertingSteps .bi i ↔ n = 3#3 ∧ ∃ p, i = .add p ∨ i = .sub p := by
  cases i with
  | add p => exact List.mem_singleton.trans (by simp)
  | sub p => exact List.mem_singleton.trans (by simp)
  | _ => exact iff_of_false List.not_mem_nil (by simp)

/-- OI is asserted in OUT t2 and nowhere else (R154). -/
theorem mem_assertingSteps_oi (i : Instr) (n : StepCode) :
    n ∈ assertingSteps .oi i ↔ n = 2#3 ∧ i = .out := by
  cases i with
  | out => exact List.mem_singleton.trans (by simp)
  | _ => exact iff_of_false List.not_mem_nil (by simp)

end Sys2Proof.Machine
end

section
/-! SUPPORT. The In lines (rules R141, R142, R147, R149 and R154 of spec/45_microcode.md): a micro-step that reads the bus
is the latch of the value there, and each line's target takes that value. -/

namespace Sys2Proof.Machine

/-- A micro-step whose word reads the bus latches the value that the used lines put there (R164). -/
theorem microStep_of_readsBus {cw : ControlWord} {s t : State} (h : microStep cw s = .next t)
    (hreads : readsBus cw = true) : ∃ v, busOf (usedLines cw) s = .value v ∧ t = latch cw v s := by
  obtain ⟨-, v, ht, hbus⟩ := microStep_next h
  exact ⟨v, hbus hreads, ht⟩

/-- Settles O45: each line's target takes the bus value of the one latch, and each line's asserting steps are read off
the microprograms. -/
theorem inLinesLoadFromTheBus : Obligations.InLinesLoadFromTheBus := by
  unfold Obligations.InLinesLoadFromTheBus
  refine ⟨fun cw s t h => ⟨fun hmi => ?mar, fun hri => ?ram, fun hai => ?a, fun hbi => ?b, fun hoi hoc => ?out⟩,
    fun i n cw hcw => ?steps⟩
  case mar =>
    obtain ⟨v, hv, rfl⟩ := microStep_of_readsBus h (by simp [readsBus, hmi])
    exact ⟨v, hv, if_pos hmi⟩
  case ram =>
    obtain ⟨v, hv, rfl⟩ := microStep_of_readsBus h (by simp [readsBus, hri])
    exact ⟨v, hv, if_pos hri⟩
  case a =>
    obtain ⟨v, hv, rfl⟩ := microStep_of_readsBus h (by simp [readsBus, hai])
    exact ⟨v, hv, if_pos hai⟩
  case b =>
    obtain ⟨v, hv, rfl⟩ := microStep_of_readsBus h (by simp [readsBus, hbi])
    exact ⟨v, hv, if_pos hbi⟩
  case out =>
    obtain ⟨v, hv, rfl⟩ := microStep_of_readsBus h (by simp [readsBus, hoi])
    exact ⟨v, hv, by simp [latch, hoi, hoc]⟩
  case steps =>
    simp only [asserted_iff_mem_assertingSteps hcw]
    exact ⟨mem_assertingSteps_ri i n, mem_assertingSteps_ai i n, mem_assertingSteps_bi i n, mem_assertingSteps_oi i n⟩

end Sys2Proof.Machine
end

section
/-! SUPPORT. The microprogram table (rule R167 of spec/45_microcode.md) and the line NXT that ends every microprogram
(rule R162). -/

namespace Sys2Proof.Machine

/-- The opcode field alone selects the microprogram of a word (R75, R163). -/
theorem microprogram_decode (op p : Nibble) :
    microprogram (decode (op ++ p)) =
      microprogram (instrOfFields (op.getLsbD 3) (op.getLsbD 2) (op.getLsbD 1) (op.getLsbD 0) p) :=
  congrArg microprogram (decode_wordOfFields op p)

/-- Settles O43: the opcode bits of each row select its instruction, whose microprogram is the row's list. -/
theorem microprogramTable : Obligations.MicroprogramTable := by
  unfold Obligations.MicroprogramTable
  intro p
  simp only [microprogram_decode]
  exact ⟨rfl, rfl, rfl, rfl, rfl, rfl, rfl, rfl, rfl, rfl, rfl, rfl, rfl, rfl, rfl, rfl⟩

/-- A running machine whose word drives no value on the bus and reads none loads only what needs no bus. -/
theorem microStep_of_idle_bus {cw : ControlWord} {s : State} (hrun : s.halt = false)
    (hbus : busOf (usedLines cw) s = .floating) (hreads : readsBus cw = false) :
    microStep cw s = .next (latch cw 0x00#8 s) := by
  simp only [microStep, hrun, hbus, hreads, Bool.false_eq_true, if_false]

/-- NXT returns T to t0 and moves no data (R162). -/
theorem microStep_nxt {s : State} (hrun : s.halt = false) :
    microStep (wordOfLines [.nxt]) s = .next { s with t := 0#3 } := by
  have hbus : busOf (usedLines (wordOfLines [.nxt])) s = .floating := rfl
  rw [microStep_of_idle_bus hrun hbus (by decide)]
  simp [latch, latchPc, latchT, asserted, lineBit, wordOfLines]

/-- Every microprogram is its steps before the last, which do without NXT, and then NXT alone; the documented cycles
count the two fetch steps and those (R162, R207). -/
theorem microprogram_ends_by_nxt {i : Instr} {rows : List (List ControlLine)} (h : microprogram i = some rows) :
    rows = rows.dropLast ++ [[.nxt]] ∧ (∀ row ∈ rows.dropLast, ControlLine.nxt ∉ row) ∧
      clockCycles i = some (2 + rows.dropLast.length) := by
  cases i <;> cases h <;> exact ⟨rfl, by decide, rfl⟩

/-- Settles O48, with the steps before the last as the earlier ones. -/
theorem nxtEndsEveryMicroprogram : Obligations.NxtEndsEveryMicroprogram := by
  unfold Obligations.NxtEndsEveryMicroprogram
  exact ⟨fun s hrun => microStep_nxt hrun, fun i rows h => ⟨rows.dropLast, microprogram_ends_by_nxt h⟩⟩

end Sys2Proof.Machine
end

section
/-! SUPPORT. Encoder and decoder undo each other (rules R75, R77 and R81 of spec/30_encoding.md), and the one row of the
opcode map that covers a word (rule R74). -/

namespace Sys2Proof

/-- A fact about every word is one about every pair of fields (R71). -/
theorem forall_word_of_forall_fields {P : Byte → Prop} (h : ∀ op p : Nibble, P (wordOfFields op p)) (w : Byte) : P w :=
  wordOfFields_fields w ▸ h (opcodeField w) (parameterField w)

/-- Encoding and then decoding gives the term back (R81): the opcode bits of each row select its constructor, and the
parameter field is the operand. -/
@[simp] theorem decode_encode (i : Instr) : decode (encode i) = i := by
  rw [encode, decode_wordOfFields]
  cases i <;> simp only [Instr.opcode, Instr.parameter] <;> rfl

/-- Settles O2: reading the byte off a list is decoding it. -/
theorem decodeOfEncodeIsIdentity : Obligations.DecodeOfEncodeIsIdentity := by
  unfold Obligations.DecodeOfEncodeIsIdentity
  refine ⟨decode_encode, fun i rest => ?_⟩
  rw [decodeBytes, decode_encode]

/-- The words whose parameter bits are ignored (R77). -/
def Instr.ignoresParameter (i : Instr) : Prop := i = .nop ∨ i = .clr ∨ i = .out ∨ i = .hlt

/-- Settles O3: each of the sixteen rows, with each parameter. -/
theorem encodeOfDecodeKeepsWord : Obligations.EncodeOfDecodeKeepsWord := by
  unfold Obligations.EncodeOfDecodeKeepsWord
  exact forall_word_of_forall_fields (by decide)

/-- Re-encoding gives the word back unless its parameter is ignored (R81). -/
theorem encode_decode {w : Byte} (h : ¬ (decode w).ignoresParameter) : encode (decode w) = w :=
  (encodeOfDecodeKeepsWord w).trans (if_neg h)

/-- The decoded term has the opcode of the word (R75). -/
@[simp] theorem opcode_decode (w : Byte) : (decode w).opcode = opcodeField w :=
  forall_word_of_forall_fields (P := fun w => (decode w).opcode = opcodeField w) (by decide) w

/-- A decoded operand is the parameter field of the word (R72). -/
theorem parameterField_of_decode {w : Byte} {i : Instr} (h : decode w = i) (hi : ¬ i.ignoresParameter) :
    parameterField w = i.parameter := by
  subst h
  rw [← parameterField_wordOfFields (decode w).opcode (decode w).parameter]
  exact congrArg parameterField (encode_decode hi).symm

/-- The opcode is assigned exactly outside 9 to 12 (R74, R76). -/
theorem wellFormed_iff_opcode (i : Instr) : i.wellFormed = true ↔ i.opcode.toNat ≤ 8 ∨ 13 ≤ i.opcode.toNat := by
  cases i <;> simp [Instr.wellFormed, Instr.opcode]

/-- Re-encoding a word keeps its high nibble (R81). -/
theorem encode_decode_and_mask (w : Byte) : encode (decode w) &&& 0xF0#8 = w &&& 0xF0#8 :=
  forall_word_of_forall_fields (P := fun w => encode (decode w) &&& 0xF0#8 = w &&& 0xF0#8) (by decide) w

/-- Every row masks the low nibble away, so that it covers a word and the re-encoded word alike (R74). -/
theorem covers_encode_decode {r : EncodingRow} (hr : r ∈ encodingTable) (w : Byte) :
    r.covers (encode (decode w)) = r.covers w := by
  have hmask : ∀ r ∈ encodingTable, r.mask = 0xF0#8 := by decide
  simp only [EncodingRow.covers, hmask r hr, encode_decode_and_mask]

/-- The word of every term is covered by the row of its mnemonic alone (R74). -/
theorem encodesToItsRow (i : Instr) : Laws.EncodesToItsRow.Statement i := by
  cases i with
  | nop => exact Laws.EncodesToItsRow.nop
  | lda p => exact Laws.EncodesToItsRow.lda p
  | add p => exact Laws.EncodesToItsRow.add p
  | sub p => exact Laws.EncodesToItsRow.sub p
  | sta p => exact Laws.EncodesToItsRow.sta p
  | ldi p => exact Laws.EncodesToItsRow.ldi p
  | jmp p => exact Laws.EncodesToItsRow.jmp p
  | jc p => exact Laws.EncodesToItsRow.jc p
  | jz p => exact Laws.EncodesToItsRow.jz p
  | reserved1001 p => exact Laws.EncodesToItsRow.reserved1001 p
  | reserved1010 p => exact Laws.EncodesToItsRow.reserved1010 p
  | reserved1011 p => exact Laws.EncodesToItsRow.reserved1011 p
  | reserved1100 p => exact Laws.EncodesToItsRow.reserved1100 p
  | clr => exact Laws.EncodesToItsRow.clr
  | out => exact Laws.EncodesToItsRow.out
  | hlt => exact Laws.EncodesToItsRow.hlt

/-- Settles O4: a word has the rows of the encoding of its instruction, which has one; the count is by evaluation. -/
theorem everyWordHasExactlyOneRow : Obligations.EveryWordHasExactlyOneRow := by
  unfold Obligations.EveryWordHasExactlyOneRow
  refine ⟨fun w => ?_, rfl⟩
  rw [← List.filter_congr fun r hr => covers_encode_decode hr w]
  exact encodesToItsRow (decode w)

/-- Settles O1, by evaluation of the twenty-seven words. -/
theorem specWordsDecodeAndEncode : Obligations.SpecWordsDecodeAndEncode := by
  unfold Obligations.SpecWordsDecodeAndEncode
  decide

end Sys2Proof
end

section
/-! SUPPORT. The state table of rule R20 of spec/10_state.md for the execute phase: the one state that each of the twelve
instructions leaves, field by field, and that `exec` and `step` answer it and nothing else. -/

namespace Sys2Proof.Machine

/-- The state that the execute phase of one of the twelve instructions leaves, one register at a time: who writes it and
with what. The four reserved opcodes have no such state. -/
def executed (i : Instr) (s : State) : State where
  a := match i with
    | .lda p => s.memRead p
    | .add p => aluResult s.a (s.memRead p) false
    | .sub p => aluResult s.a (s.memRead p) true
    | .ldi v => immediate v
    | _ => s.a
  b := match i with
    | .add p | .sub p => s.memRead p
    | _ => s.b
  pc := match i with
    | .jmp p => p
    | .jc p => if s.cf then p else s.pc
    | .jz p => if s.zf then p else s.pc
    | _ => s.pc
  cf := match i with
    | .add p => aluCarry s.a (s.memRead p) false
    | .sub p => aluCarry s.a (s.memRead p) true
    | _ => s.cf
  zf := match i with
    | .add p => zeroFlag (aluResult s.a (s.memRead p) false)
    | .sub p => zeroFlag (aluResult s.a (s.memRead p) true)
    | _ => s.zf
  ram := match i with
    | .sta p => s.ram.write p.toNat s.a
    | _ => s.ram
  out := match i with
    | .clr => 0x00#8
    | .out => s.a
    | _ => s.out
  trace := match i with
    | .clr => s.trace ++ [0x00#8]
    | .out => s.trace ++ [s.a]
    | _ => s.trace
  halt := match i with
    | .hlt => true
    | _ => s.halt
  ir := s.ir
  mar := match i with
    | .lda p | .add p | .sub p | .sta p => p
    | _ => s.mar
  t := match i with
    | .hlt => s.haltedT 2#3
    | _ => s.t
  draws := match i with
    | .hlt => s.draws + 1
    | _ => s.draws

/-- Each of the twelve instructions leaves the state of the table. -/
theorem exec_of_wellFormed {i : Instr} (hi : i.wellFormed = true) (s : State) : exec i s = .next (executed i s) := by
  cases i with
  | reserved1001 | reserved1010 | reserved1011 | reserved1100 => cases hi
  | jc p => exact exec_jc p s
  | jz p => exact exec_jz p s
  | _ => rfl

/-- Each reserved opcode is IllegalOpcode with its own word (R185). -/
theorem exec_of_not_wellFormed {i : Instr} (hi : i.wellFormed = false) (s : State) :
    exec i s = raiseIllegalOpcode (encode i) s := by
  cases i with
  | reserved1001 | reserved1010 | reserved1011 | reserved1100 => rfl
  | _ => cases hi

/-- `exec` answers a next state for the twelve instructions only, and it is that of the table. -/
theorem exec_next_iff {i : Instr} {s t : State} :
    exec i s = .next t ↔ i.wellFormed = true ∧ t = executed i s := by
  cases hi : i.wellFormed with
  | true => simp [exec_of_wellFormed hi, eq_comm]
  | false => simp [exec_of_not_wellFormed hi, raiseIllegalOpcode]

/-- A step answers a next state exactly when the machine runs and the fetched word spells one of the twelve instructions;
it is then the table's, taken after the fetch (R9). -/
theorem step_next_iff {s t : State} :
    step s = .next t ↔ s.halt = false ∧ (decode (s.memRead s.pc)).wellFormed = true ∧
      t = executed (decode (s.memRead s.pc)) s.fetched := by
  cases hrun : s.halt with
  | true => simp [step_halted hrun]
  | false => simp [step_of_decode hrun rfl, exec_next_iff]

/-- Settles O16: the table's state. -/
theorem everyInstructionCompletes : Obligations.EveryInstructionCompletes := by
  unfold Obligations.EveryInstructionCompletes
  exact fun i s hi => ⟨executed i s, exec_of_wellFormed hi s⟩

/-- Settles O17: the word of the fault is the encoding of the reserved term. -/
theorem reservedOpcodesAreIllegal : Obligations.ReservedOpcodesAreIllegal := by
  unfold Obligations.ReservedOpcodesAreIllegal
  exact fun p s => ⟨exec_of_not_wellFormed rfl s, exec_of_not_wellFormed rfl s, exec_of_not_wellFormed rfl s,
    exec_of_not_wellFormed rfl s⟩

/-- Settles O13: the fetch in one update, then the execute phase. -/
theorem stepRunsTheDecodedInstruction : Obligations.StepRunsTheDecodedInstruction := by
  unfold Obligations.StepRunsTheDecodedInstruction
  intro s i hrun hi
  rw [step_of_decode hrun hi, State.fetched_eq]

end Sys2Proof.Machine
end

section
/-! SUPPORT. The invariant of the instruction level (rules R35, R39 and R169): the launches have it, and every step keeps
each of its three parts. -/

namespace Sys2Proof.Machine

/-- An execute phase keeps the RAM canonical. -/
theorem executed_wf {s : State} (h : s.ram.wf = true) (i : Instr) : (executed i s).ram.wf = true := by
  cases i with
  | sta p => exact Memory.wf_write h p s.a
  | _ => exact h

/-- HLT leaves T at 2 or 3 (R169). -/
theorem haltedT_two (s : State) : s.haltedT 2#3 = 2#3 ∨ s.haltedT 2#3 = 3#3 :=
  (s.haltedT_cases 2#3).symm

/-- An execute phase ends at an instruction boundary: HLT stops the counter at 2 or 3, all others leave it (R39). -/
theorem executed_atBoundary {s : State} (h : AtBoundary s) (i : Instr) : AtBoundary (executed i s) := by
  cases i with
  | hlt => exact ⟨fun hrun => Bool.noConfusion hrun, fun _ => haltedT_two s⟩
  | _ => exact h

/-- An execute phase leaves in OUT the last value it appends to the trace (R34, R35). -/
theorem executed_displayMatchesTrace {s : State} (h : DisplayMatchesTrace s) (i : Instr) :
    DisplayMatchesTrace (executed i s) := by
  cases i with
  | clr => exact .inr List.getLast?_concat
  | out => exact .inr List.getLast?_concat
  | _ => exact h

/-- Settles O12: the fetch touches no part of the invariant, and the execute phase keeps each. -/
theorem everyStepKeepsInvariant : Obligations.EveryStepKeepsInvariant := by
  unfold Obligations.EveryStepKeepsInvariant
  rintro s t ⟨hwf, hboundary, hdisplay⟩ h
  obtain ⟨-, -, rfl⟩ := step_next_iff.mp h
  exact ⟨executed_wf (s := s.fetched) hwf _, executed_atBoundary (s := s.fetched) hboundary _,
    executed_displayMatchesTrace (s := s.fetched) hdisplay _⟩

/-- Zero in every cell is the memory that lists no cell (log 3). -/
theorem ofCells_zero : Memory.ofCells (fun _ => 0x00#8) = [] := by decide

/-- Settles O9: the RAM of zeros lists no cell. -/
theorem resetIsOneOfTheLaunches : Obligations.ResetIsOneOfTheLaunches := by
  unfold Obligations.ResetIsOneOfTheLaunches
  refine ⟨rfl, rfl, rfl, rfl, ?_⟩
  rw [State.launch, ofCells_zero]
  rfl

/-- A running state with T = 0, a canonical memory and an empty trace has the invariant. -/
theorem inv_of_fresh {s : State} (hwf : s.ram.wf = true) (hrun : s.halt = false) (ht : s.t = 0#3)
    (htrace : s.trace = []) : Inv s :=
  ⟨hwf, ⟨fun _ => ht, fun hhalt => by simp [hrun] at hhalt⟩, .inl htrace⟩

/-- Settles O11: each of the three is a fresh state. -/
theorem invariantHoldsAtLaunch : Obligations.InvariantHoldsAtLaunch := by
  unfold Obligations.InvariantHoldsAtLaunch
  refine ⟨inv_of_fresh rfl rfl rfl rfl, fun p f => ?launch, fun p s h => ?reset⟩
  case launch => exact inv_of_fresh (State.launch_wf p f) rfl rfl rfl
  case reset =>
    obtain ⟨hwf, -, -⟩ := h
    exact inv_of_fresh hwf rfl rfl rfl

/-- Settles O8: the cells are those of the canonical memory of INIT_RAM. -/
theorem launchStateHoldsItsParameters : Obligations.LaunchStateHoldsItsParameters := by
  unfold Obligations.LaunchStateHoldsItsParameters
  intro p f
  exact ⟨rfl, rfl, rfl, rfl, rfl, rfl, rfl, rfl, rfl, rfl, rfl, (Memory.ofCells_spec f).2⟩

/-- Settles O10: the machine runs after the event, and the cell at pc = 0 is the one before it. -/
theorem resetEventRestartsAndKeepsRam : Obligations.ResetEventRestartsAndKeepsRam := by
  unfold Obligations.ResetEventRestartsAndKeepsRam
  intro p s
  exact ⟨rfl, rfl, rfl, rfl, rfl, rfl, rfl, rfl, rfl, rfl, rfl, fun _ => rfl, step_running (pressReset_halt p s)⟩

end Sys2Proof.Machine
end

section
/-! SUPPORT. Runs (rules R210 and R212 of spec/70_reset_and_hazards.md): how a run goes on after its first step and after
its first part, and that a stop ends it. -/

namespace Sys2Proof.Machine

/-- A run of any machine whose first step answers no next state stops with what that step answers. -/
theorem coreRun_succ_of_stop {M : Host.Core} {s : M.State} (h : ∀ t, M.step s ≠ .next t) (k : Nat) :
    M.run (k + 1) s = M.step s := by
  rw [Host.Core.run]
  split
  · next t hs => exact absurd hs (h t)
  · next hs => exact hs.symm
  · next hs => exact hs.symm

/-- A run whose first step answers no next state stops with what that step answers (R184). -/
theorem runSteps_succ_of_stop {s : State} (h : ∀ t, step s ≠ .next t) (k : Nat) : runSteps (k + 1) s = step s :=
  coreRun_succ_of_stop (M := core) h k

/-- A run of at least one step that answers a next state has a first step and goes on from it. -/
theorem runSteps_succ_next {k : Nat} {s t : State} (h : runSteps (k + 1) s = .next t) :
    ∃ u, step s = .next u ∧ runSteps k u = .next t := by
  by_cases hs : ∃ u, step s = .next u
  · obtain ⟨u, hu⟩ := hs
    exact ⟨u, hu, (runSteps_succ_of_step hu k).symm.trans h⟩
  · have hstop : ∀ u, step s ≠ .next u := fun u hu => hs ⟨u, hu⟩
    exact absurd ((runSteps_succ_of_stop hstop k).symm.trans h) (hstop t)

/-- A run goes on from the state that its first part reaches. -/
theorem runSteps_add {j : Nat} {s t : State} (h : runSteps j s = .next t) (k : Nat) :
    runSteps (j + k) s = runSteps k t := by
  induction j generalizing s with
  | zero =>
    cases h
    rw [Nat.zero_add]
  | succ j ih =>
    obtain ⟨u, hstep, hrest⟩ := runSteps_succ_next h
    rw [Nat.add_right_comm, runSteps_succ_of_step hstep, ih hrest]

/-- A halted machine's step answers no next state (R93). -/
theorem step_halted_ne_next {s : State} (h : s.halt = true) (t : State) : step s ≠ .next t := by
  simp [step_halted h]

/-- A halted machine's run of at least one step answers no next state (R93). -/
theorem runSteps_halted_ne_next {s : State} (h : s.halt = true) (k : Nat) (t : State) :
    runSteps (k + 1) s ≠ .next t := by
  rw [runSteps_succ_of_stop (step_halted_ne_next h)]
  exact step_halted_ne_next h t

/-- A halted machine reaches itself and nothing else. -/
theorem reaches_halted_iff {s u : State} (h : s.halt = true) : Reaches s u ↔ u = s := by
  constructor
  · rintro ⟨k, hk⟩
    cases k with
    | zero => exact (Host.Outcome.next.inj hk).symm
    | succ k => exact absurd hk (runSteps_halted_ne_next h k u)
  · rintro rfl
    exact ⟨0, rfl⟩

/-- Of two states that one run reaches, one reaches the other (R210). -/
theorem reaches_total {s t u : State} (ht : Reaches s t) (hu : Reaches s u) : Reaches t u ∨ Reaches u t := by
  obtain ⟨j, hj⟩ := ht
  obtain ⟨k, hk⟩ := hu
  rcases Nat.le_total j k with hle | hle
  · refine .inl ⟨k - j, ?_⟩
    rw [← runSteps_add hj, Nat.add_sub_cancel' hle, hk]
  · refine .inr ⟨j - k, ?_⟩
    rw [← runSteps_add hk, Nat.add_sub_cancel' hle, hj]

/-- Settles O57: of two ends one reaches the other, and a halted state reaches itself alone. -/
theorem runsEndInAtMostOneState : Obligations.RunsEndInAtMostOneState := by
  unfold Obligations.RunsEndInAtMostOneState
  rintro s t ⟨hreach, hhalt⟩
  refine ⟨fun t' ⟨hreach', hhalt'⟩ => ?_, fun u => reaches_halted_iff hhalt⟩
  rcases reaches_total hreach hreach' with h | h
  · exact (reaches_halted_iff hhalt).mp h
  · exact ((reaches_halted_iff hhalt').mp h).symm

end Sys2Proof.Machine
end

section
/-! SUPPORT. B, IR and MAR cannot be observed (rules R24, R37, R38 and R202): no other register of the state that an
instruction leaves depends on them. -/

namespace Sys2Proof.Machine

/-- States that agree but for B, IR and MAR are one state with two choices of these. -/
theorem agreeButScratch_iff {s s' : State} :
    AgreeButScratch s s' ↔ s' = { s with b := s'.b, ir := s'.ir, mar := s'.mar } := by
  obtain ⟨⟩ := s
  obtain ⟨⟩ := s'
  simp only [AgreeButScratch, State.mk.injEq, true_and, eq_comm]

/-- The execute phase keeps the agreement: no entry of its table reads B, IR or MAR but the three registers' own. -/
theorem executed_agreeButScratch {s s' : State} (h : AgreeButScratch s s') (i : Instr) :
    AgreeButScratch (executed i s) (executed i s') := by
  rw [agreeButScratch_iff.mp h]
  exact ⟨rfl, rfl, rfl, rfl, rfl, rfl, by cases i <;> rfl, rfl, rfl, rfl⟩

/-- The fetch keeps the agreement. -/
theorem fetched_agreeButScratch {s s' : State} (h : AgreeButScratch s s') :
    AgreeButScratch s.fetched s'.fetched := by
  rw [agreeButScratch_iff.mp h]
  exact ⟨rfl, rfl, rfl, rfl, rfl, rfl, rfl, rfl, rfl, rfl⟩

/-- From states that agree but for B, IR and MAR an instruction answers alike. -/
theorem exec_alike {s s' : State} (h : AgreeButScratch s s') (i : Instr) : AlikeResults (exec i s) (exec i s') := by
  cases hi : i.wellFormed with
  | true =>
    rw [exec_of_wellFormed hi, exec_of_wellFormed hi]
    exact executed_agreeButScratch h i
  | false =>
    obtain ⟨-, hpc, -⟩ := h
    rw [exec_of_not_wellFormed hi, exec_of_not_wellFormed hi, raiseIllegalOpcode_eq, raiseIllegalOpcode_eq, hpc]
    rfl

/-- From states that agree but for B, IR and MAR the step answers alike: both are halted, or both fetch one word. -/
theorem step_alike {s s' : State} (h : AgreeButScratch s s') : AlikeResults (step s) (step s') := by
  have hfetched := fetched_agreeButScratch h
  obtain ⟨-, hpc, -, -, hram, -, -, hhalt, -, -⟩ := h
  have hword : s'.fetchWord = s.fetchWord := by simp only [State.fetchWord, State.memRead, hpc, hram]
  cases hrun : s.halt with
  | true =>
    rw [step_halted hrun, step_halted (hhalt.symm.trans hrun)]
    rfl
  | false =>
    rw [step_running hrun, step_running (hhalt.symm.trans hrun), hword]
    exact exec_alike hfetched _

/-- Alike results are two next states that agree but for B, IR and MAR, or one stop. -/
theorem alikeResults_cases {r r' : Result} (h : AlikeResults r r') :
    (∃ t t', r = .next t ∧ r' = .next t' ∧ AgreeButScratch t t') ∨ (r' = r ∧ ∀ t, r ≠ .next t) := by
  cases r <;> cases r' <;> simp_all [AlikeResults]

/-- A stop is like itself. -/
theorem alikeResults_self_of_stop {r : Result} (h : ∀ t, r ≠ .next t) : AlikeResults r r := by
  cases r with
  | next t => exact absurd rfl (h t)
  | fault f => rfl
  | refused f => rfl

/-- Settles O39, by induction on the number of steps: the first steps are alike, and the runs go on from states that
agree again or end in the same stop. -/
theorem scratchRegistersAreUnobservable : Obligations.ScratchRegistersAreUnobservable := by
  unfold Obligations.ScratchRegistersAreUnobservable
  intro s s' k h
  induction k generalizing s s' with
  | zero => exact h
  | succ k ih =>
    rcases alikeResults_cases (step_alike h) with ⟨t, t', ht, ht', hagree⟩ | ⟨hsame, hstop⟩
    · rw [runSteps_succ_of_step ht, runSteps_succ_of_step ht']
      exact ih t t' hagree
    · rw [runSteps_succ_of_stop hstop, runSteps_succ_of_stop (hsame ▸ hstop), hsame]
      exact alikeResults_self_of_stop hstop

end Sys2Proof.Machine
end

section
/-! SUPPORT. The next state of a micro-step under each control word of R168 that has no such lemma yet, and under the two
words of the fetch (rule R166 of spec/45_microcode.md). -/

namespace Sys2Proof.Machine

/-- `CO MI` selects the cell at pc (R141, R159). -/
theorem microStep_co_mi {s : State} (hrun : s.halt = false) :
    microStep (wordOfLines [.co, .mi]) s = .next { s.setMar s.pc with t := s.t + 1#3 } := by
  have hbus : busOf (usedLines (wordOfLines [.co, .mi])) s = .value (wordOfFields 0b0000#4 s.pc) := rfl
  rw [microStep_of_bus hrun hbus]
  simp [latch, latchPc, latchT, asserted, lineBit, wordOfLines, State.setMar]

/-- `RO II CE` loads IR with the cell at MAR and advances pc (R143, R145, R157). -/
theorem microStep_ro_ii_ce {s : State} (hrun : s.halt = false) :
    microStep (wordOfLines [.ro, .ii, .ce]) s =
      .next { (s.setIr (s.memRead s.mar)).setPc (s.pc + 1#4) with t := s.t + 1#3 } := by
  have hbus : busOf (usedLines (wordOfLines [.ro, .ii, .ce])) s = .value (s.memRead s.mar) := rfl
  rw [microStep_of_bus hrun hbus]
  simp [latch, latchPc, latchT, asserted, lineBit, wordOfLines, State.setIr, State.setPc]

/-- `RO BI` loads B with the cell at MAR (R143, R149). -/
theorem microStep_ro_bi {s : State} (hrun : s.halt = false) :
    microStep (wordOfLines [.ro, .bi]) s = .next { s.setB (s.memRead s.mar) with t := s.t + 1#3 } := by
  have hbus : busOf (usedLines (wordOfLines [.ro, .bi])) s = .value (s.memRead s.mar) := rfl
  rw [microStep_of_bus hrun hbus]
  simp [latch, latchPc, latchT, asserted, lineBit, wordOfLines, State.setB]

/-- `ΣO AI FI` loads A and both flags from the sum of A and B (R147, R151, R153). -/
theorem microStep_sum_ai_fi {s : State} (hrun : s.halt = false) :
    microStep (wordOfLines [.sumOut, .ai, .fi]) s =
      .next { (latchFlags false s).setA (aluResult s.a s.b false) with t := s.t + 1#3 } := by
  have hbus : busOf (usedLines (wordOfLines [.sumOut, .ai, .fi])) s = .value (aluResult s.a s.b false) := rfl
  rw [microStep_of_bus hrun hbus]
  simp [latch, latchPc, latchT, asserted, lineBit, wordOfLines, aluOnBus, latchFlags, State.setFlags, State.setA]

/-- `SO ΣO AI FI` loads A and both flags from the difference of A and B (R147, R151, R152, R153). -/
theorem microStep_so_sum_ai_fi {s : State} (hrun : s.halt = false) :
    microStep (wordOfLines [.so, .sumOut, .ai, .fi]) s =
      .next { (latchFlags true s).setA (aluResult s.a s.b true) with t := s.t + 1#3 } := by
  have hbus : busOf (usedLines (wordOfLines [.so, .sumOut, .ai, .fi])) s = .value (aluResult s.a s.b true) := rfl
  rw [microStep_of_bus hrun hbus]
  simp [latch, latchPc, latchT, asserted, lineBit, wordOfLines, aluOnBus, latchFlags, State.setFlags, State.setA]

/-- `IO AI` loads A with the immediate in IR (R146, R147). -/
theorem microStep_io_ai {s : State} (hrun : s.halt = false) :
    microStep (wordOfLines [.io, .ai]) s = .next { s.setA (immediate (parameterField s.ir)) with t := s.t + 1#3 } := by
  have hbus : busOf (usedLines (wordOfLines [.io, .ai])) s = .value (immediate (parameterField s.ir)) := rfl
  rw [microStep_of_bus hrun hbus]
  simp [latch, latchPc, latchT, asserted, lineBit, wordOfLines, State.setA]

/-- `IO CI` loads pc with the parameter field of IR (R146, R158). -/
theorem microStep_io_ci {s : State} (hrun : s.halt = false) :
    microStep (wordOfLines [.io, .ci]) s = .next { s.setPc (parameterField s.ir) with t := s.t + 1#3 } := by
  have hbus : busOf (usedLines (wordOfLines [.io, .ci])) s = .value (immediate (parameterField s.ir)) := rfl
  rw [microStep_of_bus hrun hbus]
  simp [latch, latchPc, latchT, asserted, lineBit, wordOfLines, State.setPc]

/-- `AO OI` shows A (R148, R154). -/
theorem microStep_ao_oi {s : State} (hrun : s.halt = false) :
    microStep (wordOfLines [.ao, .oi]) s = .next { s.showOut s.a with t := s.t + 1#3 } := by
  have hbus : busOf (usedLines (wordOfLines [.ao, .oi])) s = .value s.a := rfl
  rw [microStep_of_bus hrun hbus]
  simp [latch, latchPc, latchT, asserted, lineBit, wordOfLines, State.showOut]

/-- JC is the conditional load of pc by CF (R160). -/
theorem microStep_jc {s : State} (hrun : s.halt = false) :
    microStep (wordOfLines [.jc]) s =
      .next { s with pc := if s.cf then parameterField s.ir else s.pc, t := s.t + 1#3 } := by
  have hbus : busOf (usedLines (wordOfLines [.jc])) s = .floating := rfl
  rw [microStep_of_idle_bus hrun hbus (by decide)]
  simp [latch, latchPc, latchT, asserted, lineBit, wordOfLines]

/-- JZ is the conditional load of pc by ZF (R160). -/
theorem microStep_jz {s : State} (hrun : s.halt = false) :
    microStep (wordOfLines [.jz]) s =
      .next { s with pc := if s.zf then parameterField s.ir else s.pc, t := s.t + 1#3 } := by
  have hbus : busOf (usedLines (wordOfLines [.jz])) s = .floating := rfl
  rw [microStep_of_idle_bus hrun hbus (by decide)]
  simp [latch, latchPc, latchT, asserted, lineBit, wordOfLines]

/-- OC shows 0x00 (R155). -/
theorem microStep_oc {s : State} (hrun : s.halt = false) :
    microStep (wordOfLines [.oc]) s = .next { s.showOut 0x00#8 with t := s.t + 1#3 } := by
  have hbus : busOf (usedLines (wordOfLines [.oc])) s = .floating := rfl
  rw [microStep_of_idle_bus hrun hbus (by decide)]
  simp [latch, latchPc, latchT, asserted, lineBit, wordOfLines, State.showOut]

/-- HLT stops the clock in its own step (R144, R169). -/
theorem microStep_hlt {s : State} (hrun : s.halt = false) :
    microStep (wordOfLines [.hlt]) s = .next (s.stopClock s.t) := by
  have hbus : busOf (usedLines (wordOfLines [.hlt])) s = .floating := rfl
  rw [microStep_of_idle_bus hrun hbus (by decide)]
  simp [latch, latchPc, latchT, asserted, lineBit, wordOfLines, State.stopClock]

/-- The empty control word only advances T (R163). -/
theorem microStep_empty {s : State} (hrun : s.halt = false) : microStep 0#24 s = .next { s with t := s.t + 1#3 } := by
  have hbus : busOf (usedLines 0#24) s = .floating := rfl
  rw [microStep_of_idle_bus hrun hbus (by decide)]
  simp [latch, latchPc, latchT, asserted]

/-- With HALT = 1 there is no micro-step under any word (R144). -/
theorem microStep_halted {s : State} (h : s.halt = true) (cw : ControlWord) : microStep cw s = .fault .halted := by
  simp [microStep, h]

/-- Settles O47: on a running machine each side is one update of pc, and a halted machine answers the same under every
word. -/
theorem jumpLinesActAsGatedLoad : Obligations.JumpLinesActAsGatedLoad := by
  unfold Obligations.JumpLinesActAsGatedLoad
  intro s
  cases hrun : s.halt with
  | true => simp [microStep_halted hrun]
  | false =>
    rw [microStep_jc hrun, microStep_jz hrun, microStep_io_ci hrun, microStep_empty hrun]
    exact ⟨fun hcf => by simp [hcf, State.setPc], fun hcf => by simp [hcf], fun hzf => by simp [hzf, State.setPc],
      fun hzf => by simp [hzf]⟩

end Sys2Proof.Machine
end

section
/-! SUPPORT. The micro-steps of one instruction run to the outcome of its step, in the documented clock cycles (rules
R170 and R171 of spec/45_microcode.md). -/

namespace Sys2Proof.Machine

/-- `k` clocks inside an instruction, and then the clock that completes it, lead from `s` to `t`: a boundary is a halt or
T back at t0. -/
def CompletesAfter : Nat → State → State → Prop
  | 0, s, t => clock s = .next t ∧ (t.halt = true ∨ t.t = 0#3)
  | k + 1, s, t => ∃ u, clock s = .next u ∧ u.halt = false ∧ u.t ≠ 0#3 ∧ CompletesAfter k u t

/-- A clock inside an instruction leaves the rest of the fuel to the clocks after it. -/
theorem clockToBoundary_inside {s u : State} (h : clock s = .next u) (hrun : u.halt = false) (ht : u.t ≠ 0#3)
    (n : Nat) : clockToBoundary (n + 1) s = clockToBoundary n u := by
  simp [clockToBoundary, h, hrun, ht]

/-- With fuel for its clocks, an instruction that completes is run to its boundary. -/
theorem clockToBoundary_of_completes {k n : Nat} {s t : State} (h : CompletesAfter k s t) (hn : k < n) :
    clockToBoundary n s = .next t := by
  induction k generalizing s n with
  | zero =>
    obtain ⟨hclock, hend⟩ := h
    obtain ⟨m, rfl⟩ := Nat.exists_eq_succ_of_ne_zero (Nat.ne_of_gt hn)
    simp [clockToBoundary, hclock, hend]
  | succ k ih =>
    obtain ⟨u, hclock, hrun, ht, hrest⟩ := h
    obtain ⟨m, rfl⟩ := Nat.exists_eq_succ_of_ne_zero (Nat.ne_of_gt (Nat.zero_lt_of_lt hn))
    rw [clockToBoundary_inside hclock hrun ht, ih hrest (Nat.lt_of_succ_lt_succ hn)]

/-- The clocks inside an instruction cost a cycle each, and the completing one costs one only where it halts (R171). -/
theorem microCyclesWithin_of_completes {k n : Nat} {s t : State} (h : CompletesAfter k s t) (hn : k < n) :
    microCyclesWithin n s = k + if t.halt then 1 else 0 := by
  induction k generalizing s n with
  | zero =>
    obtain ⟨hclock, hend⟩ := h
    obtain ⟨m, rfl⟩ := Nat.exists_eq_succ_of_ne_zero (Nat.ne_of_gt hn)
    rcases hend with hhalt | ht
    · simp [microCyclesWithin, hclock, hhalt]
    · simp [microCyclesWithin, hclock, ht]
  | succ k ih =>
    obtain ⟨u, hclock, hrun, ht, hrest⟩ := h
    obtain ⟨m, rfl⟩ := Nat.exists_eq_succ_of_ne_zero (Nat.ne_of_gt (Nat.zero_lt_of_lt hn))
    simp only [microCyclesWithin, hclock, hrun, ht, beq_iff_eq, Bool.false_eq_true, if_false,
      ih hrest (Nat.lt_of_succ_lt_succ hn)]
    omega

/-- The clock of a running machine is the micro-step under the lines that IR and T select (R163). -/
theorem clock_of_lines {s : State} {i : Instr} {n : StepCode} {ls : List ControlLine} (hrun : s.halt = false)
    (hi : decode s.ir = i) (hn : s.t = n) (hls : linesAt i n = some ls) : clock s = microStep (wordOfLines ls) s := by
  simp [clock, hrun, hi, hn, controlWordAt, hls]

/-- A row inside a microprogram is one clock inside the instruction. -/
theorem completesAfter_row {s u t : State} {i : Instr} {ls : List ControlLine} {k : Nat} (n : StepCode)
    (hrun : s.halt = false) (hi : decode s.ir = i) (hn : s.t = n) (hstep : microStep (wordOfLines ls) s = .next u)
    (hls : linesAt i n = some ls) (hu : u.halt = false) (hnext : u.t = n + 1#3) (hne : n + 1#3 ≠ 0#3)
    (hrest : CompletesAfter k u t) : CompletesAfter (k + 1) s t :=
  ⟨u, (clock_of_lines hrun hi hn hls).trans hstep, hu, hnext ▸ hne, hrest⟩

/-- The row NXT completes the instruction and changes T alone (R162). -/
theorem completesAfter_nxt {s t : State} {i : Instr} (n : StepCode) (hrun : s.halt = false) (hi : decode s.ir = i)
    (hn : s.t = n) (hls : linesAt i n = some [.nxt]) (ht : t.t = 0#3) (hsame : t = { s with t := t.t }) :
    CompletesAfter 0 s t := by
  refine ⟨?_, .inr ht⟩
  rw [clock_of_lines hrun hi hn hls, microStep_nxt hrun, hsame, ht]

end Sys2Proof.Machine
end

section
/-! SUPPORT. The microprogram of each of the twelve instructions (rule R167 of spec/45_microcode.md), run from t2 on: it
completes in the state that the execute phase leaves. -/

namespace Sys2Proof.Machine

section
variable {s : State} {p : Nibble} (hrun : s.halt = false) (ht : s.t = 0#3)
include hrun ht

/-- NXT at t2 completes NOP (R90). -/
theorem nop_completes (hi : decode s.ir = .nop) : CompletesAfter 0 (s.setT 2#3) (executed .nop s) :=
  completesAfter_nxt 2#3 hrun hi rfl rfl ht rfl

/-- `IO MI` and `RO AI` are LDA (R100). -/
theorem lda_completes (hi : decode s.ir = .lda p) : CompletesAfter 2 (s.setT 2#3) (executed (.lda p) s) := by
  obtain rfl : parameterField s.ir = p := parameterField_of_decode hi (by simp [Instr.ignoresParameter])
  refine completesAfter_row 2#3 hrun hi rfl (microStep_io_mi hrun) rfl hrun rfl (by decide) ?_
  refine completesAfter_row 3#3 hrun hi rfl (microStep_ro_ai hrun) rfl hrun rfl (by decide) ?_
  exact completesAfter_nxt 4#3 hrun hi rfl rfl ht rfl

/-- `IO MI`, `RO BI` and `ΣO AI FI` are ADD (R110). -/
theorem add_completes (hi : decode s.ir = .add p) : CompletesAfter 3 (s.setT 2#3) (executed (.add p) s) := by
  obtain rfl : parameterField s.ir = p := parameterField_of_decode hi (by simp [Instr.ignoresParameter])
  refine completesAfter_row 2#3 hrun hi rfl (microStep_io_mi hrun) rfl hrun rfl (by decide) ?_
  refine completesAfter_row 3#3 hrun hi rfl (microStep_ro_bi hrun) rfl hrun rfl (by decide) ?_
  refine completesAfter_row 4#3 hrun hi rfl (microStep_sum_ai_fi hrun) rfl hrun rfl (by decide) ?_
  exact completesAfter_nxt 5#3 hrun hi rfl rfl ht rfl

/-- `IO MI`, `RO BI` and `SO ΣO AI FI` are SUB (R111). -/
theorem sub_completes (hi : decode s.ir = .sub p) : CompletesAfter 3 (s.setT 2#3) (executed (.sub p) s) := by
  obtain rfl : parameterField s.ir = p := parameterField_of_decode hi (by simp [Instr.ignoresParameter])
  refine completesAfter_row 2#3 hrun hi rfl (microStep_io_mi hrun) rfl hrun rfl (by decide) ?_
  refine completesAfter_row 3#3 hrun hi rfl (microStep_ro_bi hrun) rfl hrun rfl (by decide) ?_
  refine completesAfter_row 4#3 hrun hi rfl (microStep_so_sum_ai_fi hrun) rfl hrun rfl (by decide) ?_
  exact completesAfter_nxt 5#3 hrun hi rfl rfl ht rfl

/-- `IO MI` and `AO RI` are STA (R101). -/
theorem sta_completes (hi : decode s.ir = .sta p) : CompletesAfter 2 (s.setT 2#3) (executed (.sta p) s) := by
  obtain rfl : parameterField s.ir = p := parameterField_of_decode hi (by simp [Instr.ignoresParameter])
  refine completesAfter_row 2#3 hrun hi rfl (microStep_io_mi hrun) rfl hrun rfl (by decide) ?_
  refine completesAfter_row 3#3 hrun hi rfl (microStep_ao_ri hrun) rfl hrun rfl (by decide) ?_
  exact completesAfter_nxt 4#3 hrun hi rfl rfl ht rfl

/-- `IO AI` is LDI (R102). -/
theorem ldi_completes (hi : decode s.ir = .ldi p) : CompletesAfter 1 (s.setT 2#3) (executed (.ldi p) s) := by
  obtain rfl : parameterField s.ir = p := parameterField_of_decode hi (by simp [Instr.ignoresParameter])
  refine completesAfter_row 2#3 hrun hi rfl (microStep_io_ai hrun) rfl hrun rfl (by decide) ?_
  exact completesAfter_nxt 3#3 hrun hi rfl rfl ht rfl

/-- `IO CI` is JMP (R120). -/
theorem jmp_completes (hi : decode s.ir = .jmp p) : CompletesAfter 1 (s.setT 2#3) (executed (.jmp p) s) := by
  obtain rfl : parameterField s.ir = p := parameterField_of_decode hi (by simp [Instr.ignoresParameter])
  refine completesAfter_row 2#3 hrun hi rfl (microStep_io_ci hrun) rfl hrun rfl (by decide) ?_
  exact completesAfter_nxt 3#3 hrun hi rfl rfl ht rfl

/-- The line JC is JC (R121). -/
theorem jc_completes (hi : decode s.ir = .jc p) : CompletesAfter 1 (s.setT 2#3) (executed (.jc p) s) := by
  obtain rfl : parameterField s.ir = p := parameterField_of_decode hi (by simp [Instr.ignoresParameter])
  refine completesAfter_row 2#3 hrun hi rfl (microStep_jc hrun) rfl hrun rfl (by decide) ?_
  exact completesAfter_nxt 3#3 hrun hi rfl rfl ht rfl

/-- The line JZ is JZ (R122). -/
theorem jz_completes (hi : decode s.ir = .jz p) : CompletesAfter 1 (s.setT 2#3) (executed (.jz p) s) := by
  obtain rfl : parameterField s.ir = p := parameterField_of_decode hi (by simp [Instr.ignoresParameter])
  refine completesAfter_row 2#3 hrun hi rfl (microStep_jz hrun) rfl hrun rfl (by decide) ?_
  exact completesAfter_nxt 3#3 hrun hi rfl rfl ht rfl

/-- OC is CLR (R130). -/
theorem clr_completes (hi : decode s.ir = .clr) : CompletesAfter 1 (s.setT 2#3) (executed .clr s) := by
  refine completesAfter_row 2#3 hrun hi rfl (microStep_oc hrun) rfl hrun rfl (by decide) ?_
  exact completesAfter_nxt 3#3 hrun hi rfl rfl ht rfl

/-- `AO OI` is OUT (R131). -/
theorem out_completes (hi : decode s.ir = .out) : CompletesAfter 1 (s.setT 2#3) (executed .out s) := by
  refine completesAfter_row 2#3 hrun hi rfl (microStep_ao_oi hrun) rfl hrun rfl (by decide) ?_
  exact completesAfter_nxt 3#3 hrun hi rfl rfl ht rfl

omit ht in
/-- HLT completes in its own step, by halting (R91, R169). -/
theorem hlt_completes (hi : decode s.ir = .hlt) : CompletesAfter 0 (s.setT 2#3) (executed .hlt s) :=
  ⟨(clock_of_lines (s := s.setT 2#3) hrun hi rfl rfl).trans (microStep_hlt hrun), .inl rfl⟩

/-- Every microprogram completes its instruction, one clock cycle for each row but NXT (R167, R171). -/
theorem microprogram_completes {i : Instr} (hi : decode s.ir = i) (hwf : i.wellFormed = true) :
    ∃ k ≤ 3, clockCycles i = some (k + 2 + if (executed i s).halt then 1 else 0) ∧
      CompletesAfter k (s.setT 2#3) (executed i s) := by
  have cycles : ∀ k : Nat, some (k + 2) = some (k + 2 + if s.halt then 1 else 0) := by simp [hrun]
  cases i with
  | reserved1001 | reserved1010 | reserved1011 | reserved1100 => cases hwf
  | nop => exact ⟨0, by decide, cycles 0, nop_completes hrun ht hi⟩
  | lda p => exact ⟨2, by decide, cycles 2, lda_completes hrun ht hi⟩
  | add p => exact ⟨3, by decide, cycles 3, add_completes hrun ht hi⟩
  | sub p => exact ⟨3, by decide, cycles 3, sub_completes hrun ht hi⟩
  | sta p => exact ⟨2, by decide, cycles 2, sta_completes hrun ht hi⟩
  | ldi p => exact ⟨1, by decide, cycles 1, ldi_completes hrun ht hi⟩
  | jmp p => exact ⟨1, by decide, cycles 1, jmp_completes hrun ht hi⟩
  | jc p => exact ⟨1, by decide, cycles 1, jc_completes hrun ht hi⟩
  | jz p => exact ⟨1, by decide, cycles 1, jz_completes hrun ht hi⟩
  | clr => exact ⟨1, by decide, cycles 1, clr_completes hrun ht hi⟩
  | out => exact ⟨1, by decide, cycles 1, out_completes hrun ht hi⟩
  | hlt => exact ⟨0, by decide, rfl, hlt_completes hrun hi⟩

end

end Sys2Proof.Machine
end

section
/-! SUPPORT. The fetch cycle (rule R166 of spec/45_microcode.md), and the agreement of the two levels at the instruction
boundary (rules R170 and R171). -/

namespace Sys2Proof.Machine

/-- A reserved opcode has no control word at t2 (R76, R167). -/
theorem controlWordAt_t2_of_not_wellFormed {i : Instr} (hi : i.wellFormed = false) : controlWordAt i 2#3 = none := by
  cases i with
  | reserved1001 | reserved1010 | reserved1011 | reserved1100 => rfl
  | _ => cases hi

/-- A clock that faults ends the instruction there. -/
theorem clockToBoundary_of_fault {s : State} {f : Fault} (h : clock s = .fault f) (n : Nat) :
    clockToBoundary (n + 1) s = .fault f := by
  simp [clockToBoundary, h]

/-- A halted machine has no clock (R144). -/
theorem clock_halted {s : State} (h : s.halt = true) : clock s = .fault .halted := by
  simp [clock, h]

section
variable {s : State} (hrun : s.halt = false) (ht : s.t = 0#3)
include hrun ht

/-- t0 of the fetch: MAR selects the cell at pc. -/
theorem clock_t0 : clock s = .next { s with mar := s.pc, t := 1#3 } := by
  have hstep := microStep_co_mi hrun
  rw [ht] at hstep
  exact (clock_of_lines hrun rfl ht rfl).trans hstep

omit ht in
/-- t1 of the fetch: it ends in the state of `State.fetched`, at t2. -/
theorem clock_t1 : clock { s with mar := s.pc, t := 1#3 } = .next (s.fetched.setT 2#3) :=
  (clock_of_lines (s := { s with mar := s.pc, t := 1#3 }) hrun rfl rfl rfl).trans (microStep_ro_ii_ce hrun)

/-- After the fetch the rest of the fuel is for the microprogram. -/
theorem clockToBoundary_fetch (n : Nat) :
    clockToBoundary (n + 2) s = clockToBoundary n (s.fetched.setT 2#3) := by
  rw [clockToBoundary_inside (clock_t0 hrun ht) hrun (by simp), clockToBoundary_inside (clock_t1 hrun) hrun (by simp)]

/-- The fetch costs two clocks, both inside the instruction. -/
theorem completesAfter_fetch {k : Nat} {t : State} (h : CompletesAfter k (s.fetched.setT 2#3) t) :
    CompletesAfter (k + 2) s t :=
  ⟨_, clock_t0 hrun ht, hrun, by simp, _, clock_t1 hrun, hrun, by simp, h⟩

/-- An instruction of the twelve completes after its fetch and its microprogram, in the documented cycles. -/
theorem instruction_completes (hwf : (decode (s.memRead s.pc)).wellFormed = true) :
    ∃ k ≤ 5, clockCycles (decode (s.memRead s.pc)) =
        some (k + if (executed (decode (s.memRead s.pc)) s.fetched).halt then 1 else 0) ∧
      CompletesAfter k s (executed (decode (s.memRead s.pc)) s.fetched) := by
  obtain ⟨k, hk, hcycles, hrest⟩ := microprogram_completes (s := s.fetched) hrun ht rfl hwf
  exact ⟨k + 2, by omega, hcycles, completesAfter_fetch hrun ht hrest⟩

omit ht in
/-- A reserved word stops the clock at t2, which has no control word, with the fault of the instruction step (log 6). -/
theorem clock_reserved (hwf : (decode (s.memRead s.pc)).wellFormed = false) :
    clock (s.fetched.setT 2#3) = .fault (.illegalOpcode (s.memRead s.pc) s.pc) := by
  simp [clock, hrun, hwf, controlWordAt_t2_of_not_wellFormed hwf, State.fetchWord]

end

/-- A reserved word is the same fault at the instruction level: re-encoding it gives it back (R185). -/
theorem step_reserved {s : State} (hrun : s.halt = false) (hwf : (decode (s.memRead s.pc)).wellFormed = false) :
    step s = .fault (.illegalOpcode (s.memRead s.pc) s.pc) := by
  have hword : encode (decode (s.memRead s.pc)) = s.memRead s.pc := by
    refine encode_decode ?_
    rintro (h | h | h | h) <;> simp [h, Instr.wellFormed] at hwf
  rw [step_of_decode hrun rfl, exec_of_not_wellFormed hwf, hword, raiseIllegalOpcode, State.fetchedFrom_fetched]

/-- Settles O52: a halted machine has neither a clock nor a step; after the two clocks of the fetch a reserved word
faults, and the microprogram of one of the twelve completes in the state of the execute phase. -/
theorem microcodeAgreesWithTheStep : Obligations.MicrocodeAgreesWithTheStep := by
  unfold Obligations.MicrocodeAgreesWithTheStep
  intro s ht
  cases hrun : s.halt with
  | true => rw [microInstr, clockToBoundary_of_fault (clock_halted hrun), step_halted hrun]
  | false =>
    cases hwf : (decode (s.memRead s.pc)).wellFormed with
    | false =>
      rw [microInstr, clockToBoundary_fetch hrun ht, clockToBoundary_of_fault (clock_reserved hrun hwf),
        step_reserved hrun hwf]
    | true =>
      obtain ⟨k, hk, -, hcompletes⟩ := instruction_completes hrun ht hwf
      rw [microInstr, clockToBoundary_of_completes hcompletes (by omega), step_next_iff.mpr ⟨hrun, hwf, rfl⟩]

/-- Settles O53: the clocks inside the instruction, and the one that halts. -/
theorem microcodeTakesTheDocumentedCycles : Obligations.MicrocodeTakesTheDocumentedCycles := by
  unfold Obligations.MicrocodeTakesTheDocumentedCycles
  intro s ht hrun hwf
  obtain ⟨k, hk, hcycles, hrest⟩ := instruction_completes hrun ht hwf
  rw [hcycles, microCycles, microCyclesWithin_of_completes hrest (by omega)]

end Sys2Proof.Machine
end

section
/-! SUPPORT. The outcomes of a step (rules R93, R183, R184 and R185 of spec/60_exceptions.md) and the safety of runs. -/

namespace Sys2Proof.Machine

/-- The fetched word is one of the twelve instructions exactly when its opcode is not 9 to 12 (R74). -/
theorem wellFormed_decode_iff (w : Byte) :
    (decode w).wellFormed = true ↔ (opcodeField w).toNat ≤ 8 ∨ 13 ≤ (opcodeField w).toNat := by
  rw [wellFormed_iff_opcode, opcode_decode]

/-- Settles O14: HALT decides first, then whether the opcode is assigned. -/
theorem stepHasThreeOutcomes : Obligations.StepHasThreeOutcomes := by
  unfold Obligations.StepHasThreeOutcomes
  refine fun s => ⟨step_halted, fun hrun hlo hhi => ?reserved, fun hrun hop => ?assigned⟩
  case reserved =>
    refine step_reserved hrun (Bool.eq_false_iff.mpr fun hwf => ?_)
    have := (wellFormed_decode_iff _).mp hwf
    omega
  case assigned => exact ⟨_, step_next_iff.mpr ⟨hrun, (wellFormed_decode_iff _).mpr hop, rfl⟩⟩

/-- A step of a running machine answers a next state, or it is IllegalOpcode. -/
theorem step_running_cases {s : State} (hrun : s.halt = false) :
    (∃ t, step s = .next t) ∨ step s = .fault (.illegalOpcode (s.memRead s.pc) s.pc) := by
  cases hwf : (decode (s.memRead s.pc)).wellFormed with
  | true => exact .inl ⟨_, step_next_iff.mpr ⟨hrun, hwf, rfl⟩⟩
  | false => exact .inr (step_reserved hrun hwf)

/-- Settles O15: the two outcomes of a running machine are not `fault halted`. -/
theorem haltedMachineHasNoSuccessor : Obligations.HaltedMachineHasNoSuccessor := by
  unfold Obligations.HaltedMachineHasNoSuccessor
  refine ⟨fun s t k h => ⟨step_halted_ne_next h t, runSteps_halted_ne_next h k t⟩, fun s => ⟨fun hfault => ?_, step_halted⟩⟩
  by_contra hhalt
  rcases step_running_cases (Bool.eq_false_iff.mpr hhalt) with ⟨t, h⟩ | h <;> simp [h] at hfault

/-- Settles O56: IllegalOpcode is the one other outcome, and the run meets none. -/
theorem safeRunsStopOnlyByHalting : Obligations.SafeRunsStopOnlyByHalting := by
  unfold Obligations.SafeRunsStopOnlyByHalting
  intro s s' hsafe hreach
  cases hrun : s'.halt with
  | true => exact .inl rfl
  | false => exact .inr ((step_running_cases hrun).resolve_right (hsafe s' _ _ hreach))

end Sys2Proof.Machine
end

section
/-! SUPPORT. Which instructions change which state (rules R20 to R38): each statement reads one column of the table
`executed`. -/

namespace Sys2Proof.Machine

/-- Settles O30: the column pc of the table, for each instruction. -/
theorem nextPcFollowsTheTable : Obligations.NextPcFollowsTheTable := by
  unfold Obligations.NextPcFollowsTheTable
  intro s t h
  obtain ⟨-, -, rfl⟩ := step_next_iff.mp h
  generalize decode (s.memRead s.pc) = i
  cases i <;> rfl

/-- Settles O37: the columns IR and MAR of the table. -/
theorem irAndMarAtTheBoundary : Obligations.IrAndMarAtTheBoundary := by
  unfold Obligations.IrAndMarAtTheBoundary
  intro s t h
  obtain ⟨-, -, rfl⟩ := step_next_iff.mp h
  refine ⟨rfl, ?_⟩
  generalize decode (s.memRead s.pc) = i
  cases i <;> rfl

/-- Settles O31: the column A of the table. -/
theorem onlyFourInstructionsWriteA : Obligations.OnlyFourInstructionsWriteA := by
  unfold Obligations.OnlyFourInstructionsWriteA
  intro s t h hother
  obtain ⟨-, -, rfl⟩ := step_next_iff.mp h
  generalize decode (s.memRead s.pc) = i at hother ⊢
  cases i with
  | lda p => exact absurd rfl (hother p).1
  | ldi p => exact absurd rfl (hother p).2.1
  | add p => exact absurd rfl (hother p).2.2.1
  | sub p => exact absurd rfl (hother p).2.2.2
  | _ => rfl

/-- Every instruction but ADD and SUB keeps both flags (R30). -/
theorem executed_keeps_flags {i : Instr} (h : ∀ p, i ≠ .add p ∧ i ≠ .sub p) (s : State) :
    (executed i s).cf = s.cf ∧ (executed i s).zf = s.zf := by
  cases i with
  | add p => exact absurd rfl (h p).1
  | sub p => exact absurd rfl (h p).2
  | _ => exact ⟨rfl, rfl⟩

/-- FI is asserted in t4 of ADD and SUB and nowhere else (R30, R153). -/
theorem mem_assertingSteps_fi (i : Instr) (n : StepCode) :
    n ∈ assertingSteps .fi i ↔ n = 4#3 ∧ ∃ p, i = .add p ∨ i = .sub p := by
  cases i with
  | add p => exact List.mem_singleton.trans (by simp)
  | sub p => exact List.mem_singleton.trans (by simp)
  | _ => exact iff_of_false List.not_mem_nil (by simp)

/-- Settles O33: the columns CF and ZF of the table, and the asserting steps of FI. -/
theorem flagsPersistExceptAddAndSub : Obligations.FlagsPersistExceptAddAndSub := by
  unfold Obligations.FlagsPersistExceptAddAndSub
  refine ⟨fun s t h => ?step, fun i n cw hcw => ?line⟩
  case step =>
    obtain ⟨-, -, rfl⟩ := step_next_iff.mp h
    refine ⟨fun p hp => ?_, fun p hp => ?_, fun hother => executed_keeps_flags hother s.fetched⟩
    · rw [hp]
      exact ⟨rfl, rfl⟩
    · rw [hp]
      exact ⟨rfl, rfl⟩
  case line => exact (asserted_iff_mem_assertingSteps hcw .fi).trans (mem_assertingSteps_fi i n)

/-- Every instruction but STA keeps the RAM (R101). -/
theorem executed_keeps_ram {i : Instr} (h : ∀ p, i ≠ .sta p) (s : State) : (executed i s).ram = s.ram := by
  cases i with
  | sta p => exact absurd rfl (h p)
  | _ => rfl

/-- STA writes the old A to its cell (R101). -/
theorem executed_sta_memRead (p : Addr) (s : State) (x : Addr) :
    (executed (.sta p) s).memRead x = (s.memWrite p s.a).memRead x := rfl

/-- Settles O34: the laws of one RAM write, and no write at all. -/
theorem onlyStaWritesRam : Obligations.OnlyStaWritesRam := by
  unfold Obligations.OnlyStaWritesRam
  intro s t hwf h
  obtain ⟨-, -, rfl⟩ := step_next_iff.mp h
  refine ⟨fun p hp => ?sta, fun hother x => ?other⟩
  case sta =>
    simp only [hp, executed_sta_memRead]
    exact ⟨State.memRead_memWrite_same (s := s.fetched) hwf p s.a, fun x hx => State.memRead_memWrite_ne s.fetched s.a hx⟩
  case other => rw [State.memRead, executed_keeps_ram hother, ← State.memRead, State.memRead_fetched]

/-- Settles O35: the columns OUT and trace of the table, for each instruction. -/
theorem onlyOutAndClrReachTheDisplay : Obligations.OnlyOutAndClrReachTheDisplay := by
  unfold Obligations.OnlyOutAndClrReachTheDisplay
  intro s t h
  obtain ⟨-, -, rfl⟩ := step_next_iff.mp h
  generalize decode (s.memRead s.pc) = i
  cases i <;> exact ⟨rfl, rfl⟩

/-- HLT is the words from 0xF0 on (R74). -/
theorem decode_eq_hlt_iff (w : Byte) : decode w = .hlt ↔ 0xF0 ≤ w.toNat :=
  forall_word_of_forall_fields (P := fun w => decode w = .hlt ↔ 0xF0 ≤ w.toNat) (by decide) w

/-- The execute phase of a running machine halts exactly for HLT (R91). -/
theorem executed_halt_iff {s : State} (hrun : s.halt = false) (i : Instr) : (executed i s).halt = true ↔ i = .hlt := by
  cases i with
  | hlt => exact iff_of_true rfl rfl
  | _ => exact iff_of_false (ne_true_of_eq_false hrun) (by simp)

/-- Settles O36: only HLT sets the latch, and its words are those from 0xF0 on. -/
theorem onlyHltHalts : Obligations.OnlyHltHalts := by
  unfold Obligations.OnlyHltHalts
  intro s t h
  obtain ⟨hrun, -, rfl⟩ := step_next_iff.mp h
  exact (executed_halt_iff (s := s.fetched) hrun _).trans (decode_eq_hlt_iff _)

/-- Settles O38: the next state still runs, and the word at its pc is the A just stored. -/
theorem storeIsSeenByTheNextFetch : Obligations.StoreIsSeenByTheNextFetch := by
  unfold Obligations.StoreIsSeenByTheNextFetch
  intro s t p hwf h hp hpc
  have hstored : t.memRead t.pc = s.a := by
    rw [hpc]
    exact ((onlyStaWritesRam s t hwf h).1 p hp).1
  obtain ⟨hrun, -, ht⟩ := step_next_iff.mp h
  have hrun' : t.halt = false := by
    rw [ht, hp]
    exact hrun
  rw [step_of_decode hrun' rfl, State.fetched_eq, hstored, hpc]

/-- The opcodes 0000, 1101, 1110 and 1111 decode without their parameter, to an instruction that ignores it (R77). -/
theorem decode_of_ignored_parameter {op : Nibble} (h : op = 0b0000#4 ∨ op = 0b1101#4 ∨ op = 0b1110#4 ∨ op = 0b1111#4) :
    ∃ i : Instr, i.ignoresParameter ∧ ∀ p, decode (wordOfFields op p) = i := by
  rcases h with rfl | rfl | rfl | rfl
  · exact ⟨.nop, .inl rfl, decode_wordOfFields _⟩
  · exact ⟨.clr, .inr (.inl rfl), decode_wordOfFields _⟩
  · exact ⟨.out, .inr (.inr (.inl rfl)), decode_wordOfFields _⟩
  · exact ⟨.hlt, .inr (.inr (.inr rfl)), decode_wordOfFields _⟩

/-- A word stored at pc is the one the next step executes. -/
theorem step_memWrite_pc {s : State} {w : Byte} {i : Instr} (hwf : s.ram.wf = true) (hrun : s.halt = false)
    (hi : decode w = i) (hok : i.wellFormed = true) :
    step (s.memWrite s.pc w) = .next (executed i (s.memWrite s.pc w).fetched) := by
  have hword : decode ((s.memWrite s.pc w).memRead (s.memWrite s.pc w).pc) = i := by
    rw [State.memWrite_pc, State.memRead_memWrite_same hwf, hi]
  exact (step_of_decode (s := s.memWrite s.pc w) hrun hword).trans (exec_of_wellFormed hok _)

/-- Settles O5: the two words decode to one instruction, whose columns read neither IR nor a cell, and which keeps the
RAM. -/
theorem ignoredParameterBitsHaveNoEffect : Obligations.IgnoredParameterBitsHaveNoEffect := by
  unfold Obligations.IgnoredParameterBitsHaveNoEffect
  intro s w w' hwf hrun hsame hop
  obtain ⟨i, hi, hdecode⟩ := decode_of_ignored_parameter hop
  have hw : decode w = i := wordOfFields_fields w ▸ hdecode (parameterField w)
  have hw' : decode w' = i := wordOfFields_fields w' ▸ hsame ▸ hdecode (parameterField w')
  have hcells : ∀ (v : Byte) (x : Addr), x ≠ s.pc →
      (executed i (s.memWrite s.pc v).fetched).memRead x = s.memRead x := by
    intro v x hx
    have hkept := executed_keeps_ram (i := i) (by rcases hi with rfl | rfl | rfl | rfl <;> simp) (s.memWrite s.pc v).fetched
    rw [State.memRead, hkept]
    exact State.memRead_memWrite_ne s v hx
  have hok : i.wellFormed = true := by rcases hi with rfl | rfl | rfl | rfl <;> rfl
  refine ⟨_, _, step_memWrite_pc hwf hrun hw hok, step_memWrite_pc hwf hrun hw' hok, ?_⟩
  have hagree := fun x hx => (hcells w x hx).trans (hcells w' x hx).symm
  rcases hi with rfl | rfl | rfl | rfl <;> exact ⟨rfl, rfl, rfl, rfl, rfl, rfl, rfl, rfl, rfl, rfl, hagree⟩

end Sys2Proof.Machine
end

section
/-! SUPPORT. A canonical memory is its sixteen cells (rules R41 and R50 of spec/10_state.md and spec/20_memory.md). -/

namespace Sys2Proof.Machine

/-- The first listed address reads as a byte that no unlisted address reads as. -/
theorem Memory.read_head (k : Nat) (w : Byte) (m : Memory) : Memory.read ((k, w) :: m) k = w := if_pos rfl

/-- Above the first listed address a memory reads as the rest of its list. -/
theorem Memory.read_tail {k x : Nat} (h : k < x) (w : Byte) (m : Memory) :
    Memory.read ((k, w) :: m) x = m.read x := if_neg (Nat.ne_of_lt h)

/-- Of two canonical memories that read alike, neither lists an address below the first of the other: it would read as
unlisted there. -/
theorem Memory.head_le_of_read_eq {lo k k' : Nat} {w w' : Byte} {m m' : Memory}
    (h : Memory.wfFrom lo ((k, w) :: m) = true) (h' : Memory.wfFrom lo ((k', w') :: m') = true)
    (hread : ∀ x, lo ≤ x → x < 16 → Memory.read ((k, w) :: m) x = Memory.read ((k', w') :: m') x) : k' ≤ k := by
  obtain ⟨hlo, hk, hw, -⟩ := Memory.wfFrom_cons.mp h
  obtain ⟨-, hk', hw', hm'⟩ := Memory.wfFrom_cons.mp h'
  by_contra hlt
  have hfrom : Memory.wfFrom k' ((k', w') :: m') = true := Memory.wfFrom_cons.mpr ⟨le_rfl, hk', hw', hm'⟩
  apply hw
  rw [← Memory.read_head k w m, hread k hlo hk, Memory.read_of_wfFrom_lt hfrom (not_le.mp hlt)]

/-- Two canonical memories that read alike are one list: their first addresses agree, then the bytes there, then the
rest. -/
theorem Memory.eq_of_read_eq {lo : Nat} {m m' : Memory} (h : Memory.wfFrom lo m = true)
    (h' : Memory.wfFrom lo m' = true) (hread : ∀ x, lo ≤ x → x < 16 → m.read x = m'.read x) : m = m' := by
  induction m generalizing lo m' with
  | nil =>
    cases m' with
    | nil => rfl
    | cons c m' =>
      obtain ⟨k, w⟩ := c
      obtain ⟨hlo, hk, hw, -⟩ := Memory.wfFrom_cons.mp h'
      exact absurd ((Memory.read_head k w m').symm.trans (hread k hlo hk).symm) hw
  | cons c m ih =>
    obtain ⟨k, w⟩ := c
    cases m' with
    | nil =>
      obtain ⟨hlo, hk, hw, -⟩ := Memory.wfFrom_cons.mp h
      exact absurd ((Memory.read_head k w m).symm.trans (hread k hlo hk)) hw
    | cons c' m' =>
      obtain ⟨k', w'⟩ := c'
      obtain rfl : k = k' :=
        Nat.le_antisymm (Memory.head_le_of_read_eq h' h fun x hx hx16 => (hread x hx hx16).symm)
          (Memory.head_le_of_read_eq h h' hread)
      obtain ⟨hlo, hk, -, hm⟩ := Memory.wfFrom_cons.mp h
      obtain ⟨-, -, -, hm'⟩ := Memory.wfFrom_cons.mp h'
      have hbyte : w = w' := by
        rw [← Memory.read_head k w m, hread k hlo hk, Memory.read_head]
      have hrest : m = m' := by
        refine ih hm hm' fun x hx hx16 => ?_
        rw [← Memory.read_tail hx w m, hread x (by omega) hx16, Memory.read_tail hx]
      rw [hbyte, hrest]

/-- Settles O7: the sixteen addresses are the numbers below 16. -/
theorem canonicalMemoriesReadingAlikeAreEqual : Obligations.CanonicalMemoriesReadingAlikeAreEqual := by
  unfold Obligations.CanonicalMemoriesReadingAlikeAreEqual
  refine fun m m' h h' hread => Memory.eq_of_read_eq h h' fun x _ hx => ?_
  exact BitVec.toNat_ofNatLT (w := 4) x hx ▸ hread (BitVec.ofNatLT x hx)

end Sys2Proof.Machine
end

section
/-! SUPPORT. The trace and the cycle count along a run (rule R35 of spec/10_state.md and rule R208 of
spec/70_reset_and_hazards.md). -/

namespace Sys2Proof.Machine

/-- An execute phase appends at most one value to the trace (R35). -/
theorem executed_trace (i : Instr) (s : State) :
    ∃ shown : List Byte, (executed i s).trace = s.trace ++ shown ∧ shown.length ≤ 1 := by
  cases i with
  | clr => exact ⟨[0x00#8], rfl, le_rfl⟩
  | out => exact ⟨[s.a], rfl, le_rfl⟩
  | _ => exact ⟨[], (List.append_nil _).symm, Nat.zero_le 1⟩

/-- Settles O58, by induction on the number of steps. -/
theorem traceOnlyGrowsAlongRuns : Obligations.TraceOnlyGrowsAlongRuns := by
  unfold Obligations.TraceOnlyGrowsAlongRuns
  intro k
  induction k with
  | zero =>
    rintro s t ⟨⟩
    exact ⟨[], (List.append_nil _).symm, le_rfl⟩
  | succ k ih =>
    intro s t h
    obtain ⟨u, hstep, hrest⟩ := runSteps_succ_next h
    obtain ⟨later, hlater, hlength⟩ := ih u t hrest
    obtain ⟨-, -, rfl⟩ := step_next_iff.mp hstep
    obtain ⟨first, hfirst, hone⟩ := executed_trace (decode (s.memRead s.pc)) s.fetched
    refine ⟨first ++ later, ?_, ?_⟩
    · rw [hlater, hfirst, List.append_assoc, State.fetched_trace]
    · rw [List.length_append]
      omega

/-- Each of the twelve instructions costs 2 to 5 cycles (R207). -/
theorem clockCycles_of_wellFormed {i : Instr} (h : i.wellFormed = true) :
    ∃ n, clockCycles i = some n ∧ 2 ≤ n ∧ n ≤ 5 := by
  cases i with
  | reserved1001 | reserved1010 | reserved1011 | reserved1100 => cases h
  | _ => exact ⟨_, rfl, by decide, by decide⟩

/-- The first step of a counted run adds the cycles of the instruction it executes (R208). -/
theorem runCycles_succ_of_step {s u : State} (h : step s = .next u) :
    ∃ n, 2 ≤ n ∧ n ≤ 5 ∧ ∀ k, runCycles (k + 1) s = (runCycles k u).map (n + ·) := by
  obtain ⟨-, hwf, -⟩ := step_next_iff.mp h
  obtain ⟨n, hn, hlo, hhi⟩ := clockCycles_of_wellFormed hwf
  exact ⟨n, hlo, hhi, fun k => by simp [runCycles, h, State.fetchWord, hn]⟩

/-- A run with a next state has a count, 2 to 5 cycles a step, that the runs after it add to (R208). -/
theorem runCycles_of_next {j : Nat} {s t : State} (h : runSteps j s = .next t) :
    ∃ m, 2 * j ≤ m ∧ m ≤ 5 * j ∧ runCycles j s = some m ∧ ∀ k, runCycles (j + k) s = (runCycles k t).map (m + ·) := by
  induction j generalizing s with
  | zero =>
    cases h
    exact ⟨0, le_rfl, le_rfl, rfl, fun k => by simp⟩
  | succ j ih =>
    obtain ⟨u, hstep, hrest⟩ := runSteps_succ_next h
    obtain ⟨m, hlo, hhi, hcount, hlater⟩ := ih hrest
    obtain ⟨n, hnlo, hnhi, hfirst⟩ := runCycles_succ_of_step hstep
    refine ⟨n + m, by omega, by omega, ?_, fun k => ?_⟩
    · rw [hfirst, hcount, Option.map_some]
    · rw [Nat.add_right_comm, hfirst, hlater, Option.map_map]
      congr 1
      funext c
      exact (Nat.add_assoc n m c).symm

/-- Settles O59: the count of the first part, and what the rest adds to it. -/
theorem runCyclesAddUp : Obligations.RunCyclesAddUp := by
  unfold Obligations.RunCyclesAddUp
  intro j k s t u hj hk
  obtain ⟨m, hlo, hhi, hm, hwhole⟩ := runCycles_of_next hj
  obtain ⟨n, -, -, hn, -⟩ := runCycles_of_next hk
  exact ⟨m, n, hm, hn, by rw [hwhole, hn, Option.map_some], hlo, hhi⟩

end Sys2Proof.Machine
end

section
/-! SUPPORT. ADD and SUB (rules R110 to R117 of spec/42_arithmetic.md): the ALU in numbers, and that the two undo each
other. -/

namespace Sys2Proof.Machine

/-- The words 0x2x are ADD of their low nibble (R74). -/
theorem decode_eq_add {w : Byte} (h : w &&& 0xF0#8 = 0x20#8) : decode w = .add (parameterField w) :=
  decode_of_and_mask (op := 0b0010#4) h

/-- The words 0x3x are SUB of their low nibble (R74). -/
theorem decode_eq_sub {w : Byte} (h : w &&& 0xF0#8 = 0x30#8) : decode w = .sub (parameterField w) :=
  decode_of_and_mask (op := 0b0011#4) h

/-- ADD gives the sum modulo 256 (R113). -/
theorem aluResult_add_toNat (a b : Byte) : (aluResult a b false).toNat = (a.toNat + b.toNat) % 256 := by
  rw [aluResult_toNat, aluSum_add]

/-- SUB gives the difference modulo 256 (R114). -/
theorem aluResult_sub_toNat (a b : Byte) : (aluResult a b true).toNat = (a.toNat + 256 - b.toNat) % 256 := by
  rw [aluResult_toNat, aluSum_sub]

/-- Settles O23: the ALU in numbers; the frame is the table's. -/
theorem addComputesSumAndFlags : Obligations.AddComputesSumAndFlags := by
  unfold Obligations.AddComputesSumAndFlags
  refine ⟨fun _ => decode_eq_add, fun _ => ⟨rfl, rfl⟩, fun p s => ⟨_, exec_of_wellFormed rfl s, rfl, ?sum, ?carry, ?zero,
    rfl, rfl, rfl, rfl, rfl, rfl, rfl, fun _ => rfl⟩⟩
  case sum => exact aluResult_add_toNat s.a (s.memRead p)
  case carry => exact (aluCarry_iff s.a (s.memRead p) false).trans (by rw [aluSum_add])
  case zero => exact zeroFlag_iff _

/-- Settles O24: the ALU in numbers; the flags are the comparisons of the old A with the cell. -/
theorem subComputesDifferenceAndFlags : Obligations.SubComputesDifferenceAndFlags := by
  unfold Obligations.SubComputesDifferenceAndFlags
  refine ⟨fun _ => decode_eq_sub, fun _ => ⟨rfl, rfl⟩, fun p s => ⟨_, exec_of_wellFormed rfl s, rfl, ?difference,
    aluCarry_sub_iff _ _, zeroFlag_sub_iff _ _, rfl, rfl, rfl, rfl, rfl, rfl, rfl, fun _ => rfl⟩⟩
  case difference =>
    have hresult : (executed (.sub p) s).a.toNat = _ := aluResult_sub_toNat s.a (s.memRead p)
    have hbyte := (s.memRead p).isLt
    omega

/-- Subtracting what was added gives A back, modulo 256 (R117). -/
theorem aluResult_sub_add (a b : Byte) : aluResult (aluResult a b false) b true = a := by
  have ha := a.isLt
  have hb := b.isLt
  apply BitVec.eq_of_toNat_eq
  rw [aluResult_sub_toNat, aluResult_add_toNat]
  omega

/-- Adding what was subtracted gives A back, modulo 256 (R117). -/
theorem aluResult_add_sub (a b : Byte) : aluResult (aluResult a b true) b false = a := by
  have ha := a.isLt
  have hb := b.isLt
  apply BitVec.eq_of_toNat_eq
  rw [aluResult_add_toNat, aluResult_sub_toNat]
  omega

/-- Settles O42: neither instruction changes the cell, so that the second reads what the first did. -/
theorem addAndSubUndoEachOther : Obligations.AddAndSubUndoEachOther := by
  unfold Obligations.AddAndSubUndoEachOther
  intro s x
  exact ⟨⟨_, _, exec_of_wellFormed rfl s, exec_of_wellFormed rfl _, aluResult_sub_add s.a (s.memRead x)⟩,
    ⟨_, _, exec_of_wellFormed rfl s, exec_of_wellFormed rfl _, aluResult_add_sub s.a (s.memRead x)⟩⟩

/-- Settles O40, by evaluation of the fifteen rows. -/
theorem flagOutcomeTable : Obligations.FlagOutcomeTable := by
  unfold Obligations.FlagOutcomeTable
  intro row hrow
  fin_cases hrow <;> decide

end Sys2Proof.Machine
end

section
/-! SUPPORT. HLT, LDI, JC, JZ, CLR and OUT: their sixteen words each (rule R74 of spec/30_encoding.md), and their column of
the table `executed`. -/

namespace Sys2Proof.Machine

/-- The words 0x5x are LDI of their low nibble (R74). -/
theorem decode_eq_ldi {w : Byte} (h : w &&& 0xF0#8 = 0x50#8) : decode w = .ldi (parameterField w) :=
  decode_of_and_mask (op := 0b0101#4) h

/-- The words 0x7x are JC to their low nibble (R74). -/
theorem decode_eq_jc {w : Byte} (h : w &&& 0xF0#8 = 0x70#8) : decode w = .jc (parameterField w) :=
  decode_of_and_mask (op := 0b0111#4) h

/-- The words 0x8x are JZ to their low nibble (R74). -/
theorem decode_eq_jz {w : Byte} (h : w &&& 0xF0#8 = 0x80#8) : decode w = .jz (parameterField w) :=
  decode_of_and_mask (op := 0b1000#4) h

/-- The words 0xDx are CLR (R74, R77). -/
theorem decode_eq_clr {w : Byte} (h : w &&& 0xF0#8 = 0xD0#8) : decode w = .clr :=
  decode_of_and_mask (op := 0b1101#4) h

/-- The words 0xEx are OUT (R74, R77). -/
theorem decode_eq_out {w : Byte} (h : w &&& 0xF0#8 = 0xE0#8) : decode w = .out :=
  decode_of_and_mask (op := 0b1110#4) h

/-- The words 0xFx are HLT (R74, R77). -/
theorem decode_eq_hlt {w : Byte} (h : w &&& 0xF0#8 = 0xF0#8) : decode w = .hlt :=
  decode_of_and_mask (op := 0b1111#4) h

/-- Settles O19: the column of HLT; T is its free value. -/
theorem hltHaltsAndKeepsAllElse : Obligations.HltHaltsAndKeepsAllElse := by
  unfold Obligations.HltHaltsAndKeepsAllElse
  exact ⟨fun _ => decode_eq_hlt, rfl, rfl, rfl, fun s => ⟨_, exec_of_wellFormed rfl s, rfl, haltedT_two s, rfl, rfl, rfl,
    rfl, rfl, rfl, rfl, rfl, rfl, fun _ => rfl⟩⟩

/-- The immediate is its four bits as a number (R73; D5). -/
@[simp] theorem immediate_toNat (v : Nibble) : (immediate v).toNat = v.toNat :=
  (BitVec.toNat_append 0#4 v).trans (by simp)

/-- Settles O22: the column of LDI; the immediate's high nibble is zero. -/
theorem ldiLoadsTheImmediate : Obligations.LdiLoadsTheImmediate := by
  unfold Obligations.LdiLoadsTheImmediate
  exact ⟨fun _ => decode_eq_ldi, fun _ => ⟨rfl, rfl⟩, fun v s => ⟨_, exec_of_wellFormed rfl s, immediate_toNat v, rfl, rfl,
    rfl, rfl, rfl, rfl, rfl, rfl, rfl, rfl, fun _ => rfl⟩⟩

/-- Settles O26: the one update of pc, for each value of CF. -/
theorem jcJumpsIffCarry : Obligations.JcJumpsIffCarry := by
  unfold Obligations.JcJumpsIffCarry
  refine ⟨fun _ => decode_eq_jc, fun _ => ⟨rfl, rfl⟩, fun p s => ⟨fun hcf => ?taken, fun hcf => ?notTaken⟩⟩
  case taken => rw [exec_jc, if_pos hcf]
  case notTaken => rw [exec_jc, if_neg (ne_true_of_eq_false hcf)]

/-- Settles O27: the one update of pc, for each value of ZF. -/
theorem jzJumpsIffZero : Obligations.JzJumpsIffZero := by
  unfold Obligations.JzJumpsIffZero
  refine ⟨fun _ => decode_eq_jz, fun _ => ⟨rfl, rfl⟩, fun p s => ⟨fun hzf => ?taken, fun hzf => ?notTaken⟩⟩
  case taken => rw [exec_jz, if_pos hzf]
  case notTaken => rw [exec_jz, if_neg (ne_true_of_eq_false hzf)]

/-- Settles O28: the column of CLR. -/
theorem clrClearsTheOutput : Obligations.ClrClearsTheOutput := by
  unfold Obligations.ClrClearsTheOutput
  exact ⟨fun _ => decode_eq_clr, rfl, rfl, rfl, fun s => exec_of_wellFormed rfl s⟩

/-- Settles O29: the column of OUT. -/
theorem outShowsTheAccumulator : Obligations.OutShowsTheAccumulator := by
  unfold Obligations.OutShowsTheAccumulator
  exact ⟨fun _ => decode_eq_out, rfl, rfl, rfl, fun s => exec_of_wellFormed rfl s⟩

end Sys2Proof.Machine
end

section
/-! SUPPORT. The control words of this machine (rules R166 to R168 of spec/45_microcode.md), as the list of their lines, and
the bus under them (rules R163 and R164). -/

namespace Sys2Proof.Machine

/-- The rows of the microprograms (R167): the fourteen combinations of lines that R168 lists. -/
def programRows : List (List ControlLine) :=
  [[.nxt], [.io, .mi], [.ro, .ai], [.ro, .bi], [.sumOut, .ai, .fi], [.so, .sumOut, .ai, .fi], [.ao, .ri], [.io, .ai],
    [.io, .ci], [.jc], [.jz], [.oc], [.ao, .oi], [.hlt]]

/-- All combinations of lines of this machine: the fetch cycle's and the microprograms' (R166, R167). -/
def machineRows : List (List ControlLine) := fetchLinesT0 :: fetchLinesT1 :: programRows

/-- Every row of a microprogram is listed. -/
theorem mem_programRows {i : Instr} {rows : List (List ControlLine)} (h : microprogram i = some rows) :
    ∀ ls ∈ rows, ls ∈ programRows := by
  cases i <;> cases h <;> decide

/-- From t2 on the lines are those of the microprogram's row (R165). -/
theorem linesAt_of_two_le {i : Instr} {n : StepCode} {ls : List ControlLine} (hn : 2 ≤ n.toNat)
    (h : linesAt i n = some ls) : ∃ rows, microprogram i = some rows ∧ rows[n.toNat - 2]? = some ls := by
  have h0 : n ≠ 0#3 := by rintro rfl; simp at hn
  have h1 : n ≠ 1#3 := by rintro rfl; simp at hn
  simpa only [linesAt, h0, h1, if_false, Option.bind_eq_some_iff] using h

/-- The steps of an instruction: t0 and t1 of the fetch, and the rows of the microprograms (R165). -/
theorem linesAt_cases {i : Instr} {n : StepCode} {ls : List ControlLine} (h : linesAt i n = some ls) :
    (n = 0#3 ∧ ls = fetchLinesT0) ∨ (n = 1#3 ∧ ls = fetchLinesT1) ∨ (2 ≤ n.toNat ∧ ls ∈ programRows) := by
  by_cases h0 : n = 0#3
  · subst h0
    exact .inl ⟨rfl, (Option.some.inj h).symm⟩
  · by_cases h1 : n = 1#3
    · subst h1
      exact .inr (.inl ⟨rfl, (Option.some.inj h).symm⟩)
    · have hn : 2 ≤ n.toNat := by
        have : n.toNat ≠ 0 := fun h => h0 (BitVec.eq_of_toNat_eq h)
        have : n.toNat ≠ 1 := fun h => h1 (BitVec.eq_of_toNat_eq h)
        omega
      obtain ⟨rows, hrows, hls⟩ := linesAt_of_two_le hn h
      exact .inr (.inr ⟨hn, mem_programRows hrows ls (List.mem_of_getElem? hls)⟩)

/-- The lines of every step are listed. -/
theorem mem_machineRows {i : Instr} {n : StepCode} {ls : List ControlLine} (h : linesAt i n = some ls) :
    ls ∈ machineRows := by
  rcases linesAt_cases h with ⟨-, rfl⟩ | ⟨-, rfl⟩ | ⟨-, hrow⟩
  · exact List.mem_cons_self
  · exact List.mem_cons_of_mem _ List.mem_cons_self
  · exact List.mem_cons_of_mem _ (List.mem_cons_of_mem _ hrow)

/-- Settles O44, by evaluation of each word. -/
theorem controlWordsAreTheListedNumbers : Obligations.ControlWordsAreTheListedNumbers := by
  unfold Obligations.ControlWordsAreTheListedNumbers
  exact ⟨rfl, rfl, rfl, rfl, rfl, rfl, rfl, rfl, rfl, rfl, rfl, rfl, rfl, rfl, fun _ => ⟨rfl, rfl⟩⟩

/-- The Out lines (R143, R146, R148, R150, R151, R159). -/
def outLines : List ControlLine := [.ro, .io, .ao, .bo, .sumOut, .co]

/-- Each asserted Out line puts one value on the bus. -/
theorem length_drivers (cw : ControlWord) (s : State) : (drivers cw s).length = outLines.countP (asserted cw) := by
  simp only [drivers, outLines, List.length_append, apply_ite List.length, List.length_singleton, List.length_nil,
    List.countP_cons, List.countP_nil, Nat.zero_add]
  omega

/-- The bus carries a value exactly when that is the one value put on it. -/
theorem busOf_eq_value_iff {cw : ControlWord} {s : State} {v : Byte} : busOf cw s = .value v ↔ drivers cw s = [v] := by
  rw [busOf]
  split <;> simp_all

/-- One asserted Out line gives the bus a value. -/
theorem busOf_of_one {cw : ControlWord} (h : outLines.countP (asserted cw) = 1) (s : State) :
    ∃ v, busOf cw s = .value v := by
  obtain ⟨v, hv⟩ := List.length_eq_one_iff.mp ((length_drivers cw s).trans h)
  exact ⟨v, busOf_eq_value_iff.mpr hv⟩

/-- No asserted Out line leaves the bus without a value. -/
theorem busOf_of_none {cw : ControlWord} (h : outLines.countP (asserted cw) = 0) (s : State) :
    busOf cw s = .floating := by
  rw [busOf, List.length_eq_zero_iff.mp ((length_drivers cw s).trans h)]

/-- Settles O46: the value of each asserted Out line is among those put on the bus, and that is one value. -/
theorem outLinesDriveTheBus : Obligations.OutLinesDriveTheBus := by
  unfold Obligations.OutLinesDriveTheBus
  intro cw s v hbus
  have only : ∀ w ∈ drivers cw s, v = w := by
    rw [busOf_eq_value_iff.mp hbus]
    exact fun w hw => (List.mem_singleton.mp hw).symm
  refine ⟨fun h => only _ (by simp [drivers, h]), fun h => ?io, fun h => only _ (by simp [drivers, h]),
    fun h => only _ (by simp [drivers, h]), fun h => ?sum, fun h => ?co⟩
  case io => exact only (immediate (parameterField s.ir)) (by simp [drivers, h])
  case co => exact only (wordOfFields 0b0000#4 s.pc) (by simp [drivers, h])
  case sum =>
    rw [only (aluOnBus cw s) (by simp [drivers, h]), aluOnBus]
    cases asserted cw .so with
    | false => exact aluResult_add_toNat s.a s.b
    | true => exact aluResult_sub_toNat s.a s.b

/-- Every row of this machine asserts at most one Out line, and one if it reads the bus (R164). -/
theorem machineRows_bus : ∀ ls ∈ machineRows,
    outLines.countP (asserted (wordOfLines ls)) = 1 ∨
      outLines.countP (asserted (wordOfLines ls)) = 0 ∧ readsBus (wordOfLines ls) = false := by decide

/-- Every row of this machine has used lines only (R161). -/
theorem usedLines_machineRows : ∀ ls ∈ machineRows, usedLines (wordOfLines ls) = wordOfLines ls := by decide

/-- Settles O49: under one Out line the bus has a value, and a word without one reads none. -/
theorem busIsDefinedWhenUsed : Obligations.BusIsDefinedWhenUsed := by
  unfold Obligations.BusIsDefinedWhenUsed
  intro i n cw s hcw hrun
  obtain ⟨ls, hls, rfl⟩ := Option.map_eq_some_iff.mp hcw
  have hrow := mem_machineRows hls
  have hused := usedLines_machineRows ls hrow
  rcases machineRows_bus ls hrow with hone | ⟨hnone, hreads⟩
  · obtain ⟨v, hv⟩ := busOf_of_one hone s
    exact ⟨by simp [hv], fun _ => ⟨v, hv⟩, _, microStep_of_bus hrun (hused.symm ▸ hv)⟩
  · have hbus := busOf_of_none hnone s
    exact ⟨by simp [hbus], by simp [hreads], _, microStep_of_idle_bus hrun (hused.symm ▸ hbus) hreads⟩

end Sys2Proof.Machine
end

section
/-! SUPPORT. The lines without an effect (rule R161 of spec/45_microcode.md, decision D23): a micro-step depends on the
used lines of its word alone. -/

namespace Sys2Proof.Machine

section
variable {cw cw' : ControlWord} (h : usedLines cw = usedLines cw')
include h

/-- Words with the same used lines assert the same lines but BO and O2. -/
theorem asserted_congr {l : ControlLine} (hb : l ≠ .bo) (ho : l ≠ .o2) : asserted cw l = asserted cw' l := by
  rw [← asserted_usedLines cw hb ho, h, asserted_usedLines cw' hb ho]

/-- Words with the same used lines load the same. -/
theorem latch_congr (v : Byte) (s : State) : latch cw v s = latch cw' v s := by
  simp [latch, latchPc, latchT, aluOnBus, asserted_congr h]

/-- Words with the same used lines read the bus alike. -/
theorem readsBus_congr : readsBus cw = readsBus cw' := by
  simp [readsBus, asserted_congr h]

/-- Words with the same used lines have the same micro-step. -/
theorem microStep_congr (s : State) : microStep cw s = microStep cw' s := by
  simp only [microStep, h, latch_congr h, readsBus_congr h]

end

/-- No row of this machine sets the bits of BO and O2 or the unnamed bits 2 and 1 (R161). -/
theorem machineRows_unused_bits : ∀ ls ∈ machineRows,
    (wordOfLines ls).getLsbD 14 = false ∧ (wordOfLines ls).getLsbD 8 = false ∧ (wordOfLines ls).getLsbD 2 = false ∧
      (wordOfLines ls).getLsbD 1 = false := by decide

/-- No row of a microprogram sets the bits of II, CE and CO (R161). -/
theorem programRows_fetch_bits : ∀ ls ∈ programRows,
    (wordOfLines ls).getLsbD 19 = false ∧ (wordOfLines ls).getLsbD 7 = false ∧
      (wordOfLines ls).getLsbD 5 = false := by decide

/-- Settles O50: by evaluation over this machine's rows, and since a micro-step depends on its used lines alone. -/
theorem linesNoMicroprogramAsserts : Obligations.LinesNoMicroprogramAsserts := by
  unfold Obligations.LinesNoMicroprogramAsserts
  refine ⟨fun i n cw hcw => ?never, fun cw cw' s hbits => microStep_congr (usedLines_congr hbits) s⟩
  case never =>
    obtain ⟨ls, hls, rfl⟩ := Option.map_eq_some_iff.mp hcw
    obtain ⟨h14, h8, h2, h1⟩ := machineRows_unused_bits ls (mem_machineRows hls)
    refine ⟨h14, h8, h2, h1, fun hn => programRows_fetch_bits ls ?_⟩
    rcases linesAt_cases hls with ⟨rfl, -⟩ | ⟨rfl, -⟩ | ⟨-, hrow⟩
    · simp at hn
    · simp at hn
    · exact hrow

end Sys2Proof.Machine
end

section
/-! SUPPORT. The effects and the frame of one micro-step (rules R144 to R163 of spec/45_microcode.md): each statement reads
one register of the latch. -/

namespace Sys2Proof.Machine

/-- Under HLT the counter advances or stays (R169). -/
theorem latchT_of_hlt {cw : ControlWord} {s : State} (h : asserted cw .hlt = true) :
    latchT cw s = s.t + 1#3 ∨ latchT cw s = s.t := by
  rw [latchT, if_pos h]
  exact s.haltedT_cases s.t

/-- Without HLT the counter goes back to t0 under NXT and advances otherwise (R39, R162). -/
theorem latchT_of_not_hlt {cw : ControlWord} (s : State) (h : asserted cw .hlt = false) :
    latchT cw s = if asserted cw .nxt then 0#3 else s.t + 1#3 :=
  if_neg (ne_true_of_eq_false h)

/-- Without the jump lines, pc advances under CE, and else loads the low nibble of the bus under CI (R157, R158). -/
theorem latchPc_of_no_jump {cw : ControlWord} (v : Byte) (s : State) (hjc : asserted cw .jc = false)
    (hjz : asserted cw .jz = false) :
    latchPc cw v s = if asserted cw .ce then s.pc + 1#4 else if asserted cw .ci then parameterField v else s.pc := by
  simp [latchPc, hjc, hjz]

/-- Without RI a micro-step keeps the RAM (R142). -/
theorem latch_ram_of_not_ri {cw : ControlWord} (v : Byte) (s : State) (h : asserted cw .ri = false) :
    (latch cw v s).ram = s.ram := if_neg (ne_true_of_eq_false h)

/-- Settles O60: each clause reads one register of the latch, and the bus where a line reads it. -/
theorem microStepWritesOnlyWhatItsLinesSay : Obligations.MicroStepWritesOnlyWhatItsLinesSay := by
  unfold Obligations.MicroStepWritesOnlyWhatItsLinesSay
  intro cw s t h
  obtain ⟨hrun, v, rfl, hbus⟩ := microStep_next h
  refine ⟨fun hhlt => ⟨?halted, latchT_of_hlt hhlt⟩, fun hii => ⟨v, hbus ?readsIi, if_pos hii⟩,
    fun hfi => ⟨if_pos hfi, if_pos hfi⟩, fun hoc => ⟨if_pos hoc, ?shown⟩,
    fun hjc hjz => ⟨fun hce => ?advance, fun hce hci => ⟨v, hbus ?readsCi, ?load⟩, fun hce hci => ?stay⟩,
    fun hai => if_neg (ne_true_of_eq_false hai), fun hbi => if_neg (ne_true_of_eq_false hbi),
    fun hfi => ⟨if_neg (ne_true_of_eq_false hfi), if_neg (ne_true_of_eq_false hfi)⟩,
    fun hii => if_neg (ne_true_of_eq_false hii), fun hmi => if_neg (ne_true_of_eq_false hmi), fun hhlt => ?running,
    fun hri x => congrArg (Memory.read · x.toNat) (latch_ram_of_not_ri v s hri), fun hoi hoc => ?display,
    fun hnxt hhlt => ?counter⟩
  case halted => simp [latch, hhlt]
  case readsIi => simp [readsBus, hii]
  case shown => simp [latch, hoc]
  case advance => exact (latchPc_of_no_jump v s hjc hjz).trans (if_pos hce)
  case readsCi => simp [readsBus, hci]
  case load => exact (latchPc_of_no_jump v s hjc hjz).trans (by rw [hce, hci]; rfl)
  case stay => exact (latchPc_of_no_jump v s hjc hjz).trans (by rw [hce, hci]; rfl)
  case running => simp [latch, hrun, hhlt]
  case display => simp [latch, hoi, hoc]
  case counter => exact (latchT_of_not_hlt s hhlt).trans (if_neg (ne_true_of_eq_false hnxt))

end Sys2Proof.Machine
end

section
/-! SUPPORT. The invariant of the micro-step level (rule R165 of spec/45_microcode.md): a running machine's step counter
stands at a step its instruction has, and NXT returns it before it runs past the last. -/

namespace Sys2Proof.Machine

/-- A row without NXT is not the last of its microprogram, which has at most four rows (R167). -/
theorem row_before_last {i : Instr} {rows : List (List ControlLine)} {ls : List ControlLine} {k : Nat}
    (hrows : microprogram i = some rows) (hls : rows[k]? = some ls) (hnxt : ControlLine.nxt ∉ ls) :
    k + 1 < rows.length ∧ rows.length ≤ 4 := by
  obtain ⟨hsplit, -, -⟩ := microprogram_ends_by_nxt hrows
  have hlength : rows.length ≤ 4 := by cases i <;> cases hrows <;> decide
  have hlast : rows.length = rows.dropLast.length + 1 := by rw [hsplit]; simp
  refine ⟨?_, hlength⟩
  by_contra hend
  have hk : k = rows.dropLast.length := by
    have := (List.getElem?_eq_some_iff.mp hls).1
    omega
  rw [hsplit, hk, List.getElem?_concat_length] at hls
  exact hnxt (Option.some.inj hls ▸ List.mem_singleton_self _)

/-- A row of the microprogram without NXT stands at t2, t3 or t4 and has a row after it (R165). -/
theorem linesAt_succ_of_two_le {i : Instr} {n : StepCode} {ls : List ControlLine} (hn : 2 ≤ n.toNat)
    (h : linesAt i n = some ls) (hnxt : ControlLine.nxt ∉ ls) :
    n.toNat ≤ 4 ∧ (linesAt i (n + 1#3)).isSome = true := by
  obtain ⟨rows, hrows, hls⟩ := linesAt_of_two_le hn h
  obtain ⟨hnext, hlength⟩ := row_before_last hrows hls hnxt
  have hfour : n.toNat ≤ 4 := by omega
  have hsucc : (n + 1#3).toNat = n.toNat + 1 := by bv_omega
  have h0 : n + 1#3 ≠ 0#3 := by bv_omega
  have h1 : n + 1#3 ≠ 1#3 := by bv_omega
  refine ⟨hfour, ?_⟩
  rw [linesAt, if_neg h0, if_neg h1, hrows, Option.bind_some, hsucc,
    List.getElem?_eq_getElem (by omega), Option.isSome_some]

/-- Each of the twelve instructions has a row at t2 (R167). -/
theorem linesAt_t2_isSome {i : Instr} (h : i.wellFormed = true) : (linesAt i 2#3).isSome = true := by
  cases i with
  | reserved1001 | reserved1010 | reserved1011 | reserved1100 => cases h
  | _ => rfl

/-- A micro-step keeps the RAM canonical: RI writes at MAR, a 4-bit address. -/
theorem latch_wf {s : State} (h : s.ram.wf = true) (cw : ControlWord) (v : Byte) : (latch cw v s).ram.wf = true := by
  cases hri : asserted cw .ri with
  | true =>
    have hram : (latch cw v s).ram = s.ram.write s.mar.toNat v := if_pos hri
    exact hram ▸ Memory.wf_write h s.mar v
  | false => rwa [latch_ram_of_not_ri v s hri]

/-- A micro-step leaves in OUT the last value it appends to the trace (R35). -/
theorem latch_displayMatchesTrace {s : State} (h : DisplayMatchesTrace s) (cw : ControlWord) (v : Byte) :
    DisplayMatchesTrace (latch cw v s) := by
  cases hoc : asserted cw .oc with
  | true => exact .inr (by simp [latch, hoc])
  | false =>
    cases hoi : asserted cw .oi with
    | true => exact .inr (by simp [latch, hoc, hoi])
    | false => simpa [DisplayMatchesTrace, latch, hoc, hoi] using h

/-- A clock with a next state latches the word of the lines that IR and T select. -/
theorem clock_next_latch {s t : State} (h : clock s = .next t) :
    ∃ ls v, s.halt = false ∧ linesAt (decode s.ir) s.t = some ls ∧ t = latch (wordOfLines ls) v s := by
  obtain ⟨hrun, cw, hcw, hstep⟩ := clock_next h
  obtain ⟨ls, hls, rfl⟩ := Option.map_eq_some_iff.mp hcw
  obtain ⟨-, v, ht, -⟩ := microStep_next hstep
  exact ⟨ls, v, hrun, hls, ht⟩

/-- A line that is not listed is not asserted. -/
theorem asserted_wordOfLines_of_not_mem {ls : List ControlLine} {l : ControlLine} (h : l ∉ ls) :
    asserted (wordOfLines ls) l = false :=
  Bool.eq_false_iff.mpr fun ha => h ((asserted_wordOfLines ls l).mp ha)

/-- At a step of this machine NXT excludes HLT (R167). -/
theorem hlt_not_mem_of_nxt : ∀ ls ∈ machineRows, ControlLine.nxt ∈ ls → ControlLine.hlt ∉ ls := by decide

/-- A step of this machine without NXT is t4 or an earlier one (R165). -/
theorem le_four_of_not_nxt {i : Instr} {n : StepCode} {ls : List ControlLine} (h : linesAt i n = some ls)
    (hnxt : ControlLine.nxt ∉ ls) : n.toNat ≤ 4 := by
  rcases linesAt_cases h with ⟨rfl, -⟩ | ⟨rfl, -⟩ | ⟨hn, -⟩
  · decide
  · decide
  · exact (linesAt_succ_of_two_le hn h hnxt).1

/-- From a step of this machine the counter goes to t5 at most: NXT returns it to t0, and any other word advances it by
at most one, from t4 or an earlier step (R165). -/
theorem latchT_le_five {s : State} {i : Instr} {ls : List ControlLine} (h : linesAt i s.t = some ls) :
    (latchT (wordOfLines ls) s).toNat ≤ 5 := by
  by_cases hnxt : ControlLine.nxt ∈ ls
  · have hhlt := asserted_wordOfLines_of_not_mem (hlt_not_mem_of_nxt ls (mem_machineRows h) hnxt)
    rw [latchT_of_not_hlt s hhlt, if_pos ((asserted_wordOfLines ls .nxt).mpr hnxt)]
    decide
  · have hfour := le_four_of_not_nxt h hnxt
    have hstep : latchT (wordOfLines ls) s = s.t + 1#3 ∨ latchT (wordOfLines ls) s = s.t := by
      cases hhlt : asserted (wordOfLines ls) .hlt with
      | true => exact latchT_of_hlt hhlt
      | false =>
        rw [latchT_of_not_hlt s hhlt, asserted_wordOfLines_of_not_mem hnxt]
        exact .inl rfl
    rcases hstep with hstep | hstep <;> rw [hstep] <;> bv_omega

/-- From a step of this machine that does not halt, the next step has a row for the instruction that IR then holds:
IR changes at t1 only (R165, R166). -/
theorem linesAt_latch_isSome {s : State} {ls : List ControlLine} (v : Byte) (h : linesAt (decode s.ir) s.t = some ls)
    (hhlt : asserted (wordOfLines ls) .hlt = false) (hwf : (decode (latch (wordOfLines ls) v s).ir).wellFormed = true) :
    (linesAt (decode (latch (wordOfLines ls) v s).ir) (latchT (wordOfLines ls) s)).isSome = true := by
  rw [latchT_of_not_hlt s hhlt]
  cases hnxt : asserted (wordOfLines ls) .nxt with
  | true => rfl
  | false =>
    have hnot : ControlLine.nxt ∉ ls := fun hmem => by simp [(asserted_wordOfLines ls .nxt).mpr hmem] at hnxt
    rcases linesAt_cases h with ⟨hn, -⟩ | ⟨hn, -⟩ | ⟨hn, hrow⟩
    · rw [hn]
      rfl
    · rw [hn]
      exact linesAt_t2_isSome hwf
    · have hii : asserted (wordOfLines ls) .ii = false := (programRows_fetch_bits ls hrow).1
      have hir : (latch (wordOfLines ls) v s).ir = s.ir := if_neg (ne_true_of_eq_false hii)
      rw [hir]
      exact (linesAt_succ_of_two_le hn h hnot).2

/-- From a state of the invariant the clock answers no refusal: a selected word has a micro-step, and only a reserved
word selects none. -/
theorem clock_ne_refused {s : State} (h : MicroInv s) (r : Refusal) : clock s ≠ .refused r := by
  obtain ⟨-, -, hstep⟩ := h
  cases hrun : s.halt with
  | true => simp [clock_halted hrun]
  | false =>
    cases hcw : controlWordAt (decode s.ir) s.t with
    | some cw =>
      obtain ⟨-, -, t, ht⟩ := busIsDefinedWhenUsed _ _ cw s hcw hrun
      simp [clock, hrun, hcw, ht]
    | none =>
      have hreserved : ¬ (decode s.ir).wellFormed = true := fun hwf => by
        have hsome := hstep hrun hwf
        simp [Option.map_eq_none_iff.mp hcw] at hsome
      simp [clock, hrun, hcw, hreserved]

/-- A launch stands at t0, the first step of every instruction. -/
theorem launch_microInv (p : Config.Launch) (f : Addr → Byte) : MicroInv (State.launch p f) :=
  ⟨State.launch_wf p f, .inl rfl, fun _ _ => rfl⟩

/-- A clock keeps the invariant. -/
theorem clock_keeps_microInv {s t : State} (h : MicroInv s) (hclock : clock s = .next t) : MicroInv t := by
  obtain ⟨hwf, hdisplay, -⟩ := h
  obtain ⟨ls, v, -, hls, rfl⟩ := clock_next_latch hclock
  refine ⟨latch_wf hwf _ v, latch_displayMatchesTrace hdisplay _ v, fun hrun hok => ?_⟩
  have hhlt : asserted (wordOfLines ls) .hlt = false := (Bool.or_eq_false_iff.mp hrun).2
  exact linesAt_latch_isSome v hls hhlt hok

/-- Settles O51: the invariant at each launch and over each latch, and the step the latch leaves T at. -/
theorem everyClockKeepsMicroInvariant : Obligations.EveryClockKeepsMicroInvariant := by
  unfold Obligations.EveryClockKeepsMicroInvariant
  refine ⟨launch_microInv, fun s h => ⟨clock_ne_refused h, fun t hclock => ⟨clock_keeps_microInv h hclock, ?_⟩⟩⟩
  obtain ⟨ls, v, -, hls, rfl⟩ := clock_next_latch hclock
  exact latchT_le_five hls

end Sys2Proof.Machine
end

section
/-! SUPPORT. Assembling (rules R79 to R81 of spec/30_encoding.md). -/

namespace Sys2Proof.Machine

/-- A number in range is the 4-bit operand it is written as, and the byte decodes to the instruction with it. -/
theorem operand_of_assembled {f : Addr → Instr} {n : Nat} {w : Byte} (hn : n < 16)
    (hw : encode (f (BitVec.ofNat 4 n)) = w) : ∃ p : Addr, p.toNat = n ∧ decode w = f p :=
  ⟨BitVec.ofNat 4 n, by simp [Nat.mod_eq_of_lt hn], hw ▸ decode_encode _⟩

/-- Settles O54: the byte is an encoding, which decodes back. -/
theorem assembledItemsDecodeBack : Obligations.AssembledItemsDecodeBack := by
  unfold Obligations.AssembledItemsDecodeBack
  refine ⟨fun i => ?range, fun n w => ?bytes, rfl, rfl, rfl, rfl⟩
  case range =>
    unfold assembleItem
    split <;> simp_all
  case bytes =>
    simp only [assembleItem_eq_some, asmItemOk, decide_eq_true_eq]
    refine ⟨?_, ?_, ?_, ?_, ?_, ?_, ?_, ?_, ?byte⟩
    case byte =>
      rintro ⟨hn, rfl⟩
      exact Nat.mod_eq_of_lt hn
    all_goals exact fun ⟨hn, hw⟩ => operand_of_assembled hn hw

/-- Lines with addresses assemble exactly when each address and each number is in range (R79). -/
theorem assembleFrom_isSome_iff {lines : List AsmLine} (haddr : ∀ l ∈ lines, l.address.isSome = true) (next : Nat)
    (ram : Addr → Byte) : (assembleFrom next lines ram).isSome = true ↔
      ∀ l ∈ lines, (∃ n, l.address = some n ∧ n < 16) ∧ asmItemOk l.item = true := by
  induction lines generalizing next ram with
  | nil => simp
  | cons l ls ih =>
    obtain ⟨address, item⟩ := l
    obtain ⟨n, rfl⟩ := Option.isSome_iff_exists.mp (haddr _ List.mem_cons_self)
    have ih := ih fun l hl => haddr l (List.mem_cons_of_mem _ hl)
    rw [List.forall_mem_cons, ← ih (n + 1) (fun x => if x = BitVec.ofNat 4 n then asmItemByte item else ram x)]
    simp only [Option.isSome_iff_exists, assembleFrom_cons_addressed, Option.some.injEq, exists_eq_left']
    tauto

/-- A cell that no line names keeps its contents (R79). -/
theorem assembleFrom_unnamed {lines : List AsmLine} {next : Nat} {ram image : Addr → Byte} {x : Addr}
    (h : assembleFrom next lines ram = some image) (hx : ∀ l ∈ lines, ∃ n, l.address = some n ∧ n ≠ x.toNat) :
    image x = ram x := by
  induction lines generalizing next ram with
  | nil =>
    cases h
    rfl
  | cons l ls ih =>
    obtain ⟨address, item⟩ := l
    obtain ⟨⟨n, rfl, hn⟩, hrest⟩ := List.forall_mem_cons.mp hx
    obtain ⟨hlt, -, hplaced⟩ := assembleFrom_cons_addressed.mp h
    have hcell : x ≠ BitVec.ofNat 4 n := by
      rintro rfl
      exact hn (Nat.mod_eq_of_lt hlt).symm
    rw [ih hplaced hrest, if_neg hcell]

/-- A cell that one line names holds that line's byte: the lines before do not stop it, and those after do not name the
cell (R79). -/
theorem assembleFrom_named {before later : List AsmLine} {item : AsmItem} {next : Nat} {ram image : Addr → Byte} {x : Addr}
    (h : assembleFrom next (before ++ ⟨some x.toNat, item⟩ :: later) ram = some image)
    (hbefore : ∀ l ∈ before, ∃ n, l.address = some n) (hlater : ∀ l ∈ later, ∃ n, l.address = some n ∧ n ≠ x.toNat) :
    image x = asmItemByte item := by
  induction before generalizing next ram with
  | nil =>
    obtain ⟨-, -, hplaced⟩ := assembleFrom_cons_addressed.mp h
    rw [assembleFrom_unnamed hplaced hlater, if_pos (by simp)]
  | cons l ls ih =>
    obtain ⟨address, item'⟩ := l
    obtain ⟨⟨n, rfl⟩, hrest⟩ := List.forall_mem_cons.mp hbefore
    obtain ⟨-, -, hplaced⟩ := assembleFrom_cons_addressed.mp h
    exact ih hplaced hrest

/-- Settles O55: in terms of placing lines from a given cell on over given contents. -/
theorem assemblerLeavesUnnamedCells : Obligations.AssemblerLeavesUnnamedCells := by
  unfold Obligations.AssemblerLeavesUnnamedCells
  refine ⟨fun lines ram haddr => assembleFrom_isSome_iff haddr 0 ram, fun before later l ram image x v h hothers hl hv => ?_,
    fun lines ram image x h hx => assembleFrom_unnamed h hx⟩
  obtain ⟨address, item⟩ := l
  obtain rfl : address = some x.toNat := hl
  obtain ⟨hbefore, hlater⟩ := List.forall_mem_append.mp hothers
  have hnamed := assembleFrom_named h (fun l hl => (hbefore l hl).imp fun n hn => hn.1) hlater
  exact hnamed.trans (assembleItem_eq_some.mp hv).2

end Sys2Proof.Machine
end
